-- ==== Sys2Proof/Word.lean ====
section
/-! DEFINITION. The word types of the block: a byte, a bit vector of a declared width, a command word.
The block has no arithmetic of its own on words: all counts and positions are natural numbers (R12, R113). -/

namespace Sys2Proof

/-- A byte of a caller's buffer (R42, 20_memory.md). -/
abbrev Byte := BitVec 8

/-- `bits(W)`: an ordered sequence of `w` bits, index 0 the least significant (R9, 00_scope.md). -/
abbrev Bits (w : Nat) := BitVec w

/-- The 8-bit command word (R68, 30_encoding.md). -/
abbrev Cmd := BitVec 8

end Sys2Proof
end

