-- ==== Sys2Proof/Config.lean ====
section
/-! DEFINITION. What is fixed for one built block (R6, R7, R183): the data width, the strategy, and the policy for a
syndrome above the block. Also the three values the spec leaves open under that policy. -/

namespace Sys2Proof

/-- The two codecs a Chunk can be bound to (R7, 00_scope.md). -/
inductive Strategy
  | parity
  | hamming
  deriving DecidableEq, Repr

/-- OOR_POLICY: what HAM.DEC reports when the syndrome names no position of the block (R127; D8, U2).
Log entry 3. -/
inductive OorPolicy
  /-- The values rule R127 decides. -/
  | decided
  /-- `success`, `num_corrupt_bits` and `decoded_bits` stay open. -/
  | agnostic
  deriving DecidableEq, Repr

/-- The elaboration parameters of one block (R6, R7, R22, R26). -/
structure Params where
  /-- N, the caller's data width (R6). -/
  n : Nat
  /-- STRAT (R7); `none` is the null strategy of R164. -/
  strat : Option Strategy
  /-- OOR_POLICY (R127). -/
  oor : OorPolicy
  deriving DecidableEq, Repr

/-- The parameters of `State.reset`: N = 7, the only width the source works an example for (R6), and HAMMING.
DESIGN CHOICE, log entry 2: every other block is `State.resetOf`. -/
def Config.params : Params := { n := 7, strat := some .hamming, oor := .decided }

/-- Open value (U2): `success` on path OUTOFRANGE under `OorPolicy.agnostic`, a function of N and of the stored
word read as a number. Nothing constrains it. Log entry 3. -/
opaque Config.oorSuccess : Nat → Nat → Bool

/-- Open value (U2): `num_corrupt_bits` on path OUTOFRANGE under `OorPolicy.agnostic`; R32 bounds it by 2.
Log entry 3. -/
opaque Config.oorCorrupt : Nat → Nat → Fin 3

/-- Open value (U2): `decoded_bits` on path OUTOFRANGE under `OorPolicy.agnostic`. Log entry 3. -/
opaque Config.oorDecoded : (n : Nat) → Nat → Bits n

end Sys2Proof
end

