-- ==== Sys2Proof/Syntax.lean ====
section
/-! DEFINITION. The operations of the block, one constructor per row of the opcode map (R71, 30_encoding.md).
No operand is carried in the command word (R68): operands travel on ports beside it (R69). -/

namespace Sys2Proof

inductive Instr
  /-- BV.FROMBUF, R80 -/
  | bvFromBuf
  /-- BV.TOBUF, R81 -/
  | bvToBuf
  /-- BV.RESIZE, R82 -/
  | bvResize
  /-- BV.POPCNT, R83 -/
  | bvPopcnt
  /-- BV.PARITY, R84 -/
  | bvParity
  /-- BV.TEST, R85 -/
  | bvTest
  /-- BV.FLIP, R86 -/
  | bvFlip
  /-- PAR.ENC, R101 -/
  | parEnc
  /-- PAR.DEC, R102 -/
  | parDec
  /-- HAM.ENC, R117 -/
  | hamEnc
  /-- HAM.DEC, R121 -/
  | hamDec
  /-- HAM.PLACE, R115 -/
  | hamPlace
  /-- HAM.CHECKS, R116 -/
  | hamChecks
  /-- HAM.EXTRACT, R118 -/
  | hamExtract
  /-- CHUNK.INIT, R141 -/
  | chunkInit
  /-- CHUNK.STORE, R142 -/
  | chunkStore
  /-- CHUNK.CORRUPT, R143 -/
  | chunkCorrupt
  /-- CHUNK.RETRIEVE, R145 -/
  | chunkRetrieve
  deriving DecidableEq, Repr

end Sys2Proof
end

