-- ==== Sys2Proof/WellFormed.lean ====
section
/-! DEFINITION. Which blocks can be built. An operation has no field that could be ill formed (R68: one 8-bit word, no
operand in it), and an operand of the wrong width cannot be connected (R70), which the types of the ports say. What is
left to check is the parameters. -/

namespace Sys2Proof

/-- N is at least 1 (R6, D5). -/
def Params.widthOk (p : Params) : Bool := decide (1 ≤ p.n)

/-- STRAT is one of the two strategies (R7, R164). -/
def Params.bound (p : Params) : Bool := p.strat.isSome

/-- The block can be built (R6, R7, R183). -/
def Params.wf (p : Params) : Bool := p.widthOk && p.bound

/-- Every operation is well formed: its word has no operand field (R68, R70). -/
def Instr.wf (_ : Instr) : Bool := true

end Sys2Proof
end

