-- ==== Sys2Proof/Decode.lean ====
section
/-! DEFINITION. The command word (R68, R71, R72, R75 of 30_encoding.md): `unit = cmd[7:4]`, `fn = cmd[3:0]`.
Decoding is total; the 238 reserved values decode to nothing. -/

namespace Sys2Proof

/-- `unit = cmd[7:4]`, the family (R68). -/
def cmdUnit (c : Cmd) : Nat := c.toNat / 16

/-- `fn = cmd[3:0]`, the operation in it (R68). -/
def cmdFn (c : Cmd) : Nat := c.toNat % 16

/-- `unit` 0 (R71); `fn` 7 to 15 reserved (R72). -/
def decodeBv (fn : Nat) : Option Instr :=
  match fn with
  | 0 => some .bvFromBuf
  | 1 => some .bvToBuf
  | 2 => some .bvResize
  | 3 => some .bvPopcnt
  | 4 => some .bvParity
  | 5 => some .bvTest
  | 6 => some .bvFlip
  | _ => none

/-- `unit` 1 (R71); `fn` 2 to 15 reserved (R72). -/
def decodePar (fn : Nat) : Option Instr :=
  match fn with
  | 0 => some .parEnc
  | 1 => some .parDec
  | _ => none

/-- `unit` 2 (R71); `fn` 5 to 15 reserved (R72). -/
def decodeHam (fn : Nat) : Option Instr :=
  match fn with
  | 0 => some .hamEnc
  | 1 => some .hamDec
  | 2 => some .hamPlace
  | 3 => some .hamChecks
  | 4 => some .hamExtract
  | _ => none

/-- `unit` 3 (R71); `fn` 4 to 15 reserved (R72). -/
def decodeChunk (fn : Nat) : Option Instr :=
  match fn with
  | 0 => some .chunkInit
  | 1 => some .chunkStore
  | 2 => some .chunkCorrupt
  | 3 => some .chunkRetrieve
  | _ => none

/-- The opcode map (R71); `none` on a reserved code (R72). -/
def decode (c : Cmd) : Option Instr :=
  match cmdUnit c with
  | 0 => decodeBv (cmdFn c)
  | 1 => decodePar (cmdFn c)
  | 2 => decodeHam (cmdFn c)
  | 3 => decodeChunk (cmdFn c)
  | _ => none

/-- The command word with the given `unit` and `fn` (R68). -/
def cmdOf (unit fn : Nat) : Cmd := BitVec.ofNat 8 (16 * unit + fn)

/-- The command word of an operation (R71). -/
def encode (i : Instr) : Cmd :=
  match i with
  | .bvFromBuf => cmdOf 0 0
  | .bvToBuf => cmdOf 0 1
  | .bvResize => cmdOf 0 2
  | .bvPopcnt => cmdOf 0 3
  | .bvParity => cmdOf 0 4
  | .bvTest => cmdOf 0 5
  | .bvFlip => cmdOf 0 6
  | .parEnc => cmdOf 1 0
  | .parDec => cmdOf 1 1
  | .hamEnc => cmdOf 2 0
  | .hamDec => cmdOf 2 1
  | .hamPlace => cmdOf 2 2
  | .hamChecks => cmdOf 2 3
  | .hamExtract => cmdOf 2 4
  | .chunkInit => cmdOf 3 0
  | .chunkStore => cmdOf 3 1
  | .chunkCorrupt => cmdOf 3 2
  | .chunkRetrieve => cmdOf 3 3

/-- The operation a table row's bits name. A command word is always 8 bits (R75). -/
def decodeTableWord (nbits w : Nat) : Option Instr :=
  if nbits = 8 ∧ w < 256 then decode (BitVec.ofNat 8 w) else none

end Sys2Proof
end

