-- ==== Sys2Proof/Machine/Vectors.lean ====
section
/-! DEFINITION. The pseudocode primitives on bit vectors and byte buffers (00_scope.md R9 to R15). -/

namespace Sys2Proof.Machine

/-- The number whose bit `i` is `f i` for `i < w`. -/
def numberOf (f : Nat → Bool) : Nat → Nat
  | 0 => 0
  | w + 1 => numberOf f w + (f w).toNat * 2 ^ w

/-- The vector `q : bits(w)` with `q[i] = f i`: how the spec's `for i in 0 .. w-1: q[i] <- f i` is written (R9). -/
def bitsOf (w : Nat) (f : Nat → Bool) : Bits w := BitVec.ofNat w (numberOf f w)

/-- How many `k < m` have `f k`. -/
def countBelow (f : Nat → Bool) : Nat → Nat
  | 0 => 0
  | m + 1 => countBelow f m + (f m).toNat

/-- `popcount(v)` (R12). -/
def popcount {w : Nat} (v : Bits w) : Nat := countBelow (fun i => v.getLsbD i) w

/-- A sum modulo 2 (R113). -/
def odd (k : Nat) : Bool := k % 2 == 1

/-- `parity(v) = popcount(v) mod 2` (R12). -/
def parity {w : Nat} (v : Bits w) : Bool := odd (popcount v)

/-- `ispow2(p)` (R13): `p AND (p-1) = 0`, for `p >= 1`. -/
def isPow2 (p : Nat) : Bool := p != 0 && (p &&& (p - 1)) == 0

/-- `testbit(v, i) = v[i]` (R14), for `i < w`. -/
def testbit {w : Nat} (v : Bits w) (i : Nat) : Bool := v.getLsbD i

/-- `flipbit(v, i)` (R14), for `i < w`. -/
def flipbit {w : Nat} (v : Bits w) (i : Nat) : Bits w := v ^^^ BitVec.twoPow w i

/-- `v[i] <- b`. -/
def setbit {w : Nat} (v : Bits w) (i : Nat) (b : Bool) : Bits w :=
  if b then v ||| BitVec.twoPow w i else v &&& ~~~ BitVec.twoPow w i

/-- `for j in 0 .. m-1: v[place j] <- value j`. -/
def assignBits {w : Nat} (v : Bits w) (place : Nat → Nat) (value : Nat → Bool) : Nat → Bits w
  | 0 => v
  | m + 1 => setbit (assignBits v place value m) (place m) (value m)

/-- `zext_M(v)` for `M >= W`, and `v[M-1:0]` for `M < W` (R10, R82). -/
def resize {w : Nat} (m : Nat) (v : Bits w) : Bits m := BitVec.setWidth m v

/-- `ceil(x/8)` (R15). -/
def ceilBytes (x : Nat) : Nat := (x + 7) / 8

/-- `MemRead(a, n)` on a buffer (R15): byte `a` in bits `7:0`, each byte bit 0 first (R44). -/
def memRead (buf : List Byte) (a n : Nat) : Bits (8 * n) :=
  bitsOf (8 * n) fun i => (buf.getD (a + i / 8) 0#8).getLsbD (i % 8)

/-- `MemWrite(a, n, v)` on a buffer (R15): the inverse of `memRead`; every other byte stays. -/
def memWrite (buf : List Byte) (a n : Nat) (v : Bits (8 * n)) : List Byte :=
  buf.mapIdx fun k byte => if a ≤ k ∧ k < a + n then BitVec.extractLsb' (8 * (k - a)) 8 v else byte

end Sys2Proof.Machine
end

