-- ==== Sys2Proof/Machine/Widths.lean ====
section
/-! DEFINITION. The derived parameters K, R, T (00_scope.md R8; 41_parity.md R100; 42_hamming.md R110 to R112). -/

namespace Sys2Proof.Machine

/-- K, the width of the extended data block: the data and one appended parity bit (R110). -/
abbrev extWidth (n : Nat) : Nat := n + 1

/-- The source's loop (R111): `r` goes up until `2^r >= k + r + 1`; `fuel` bounds the number of steps. -/
def searchChecks (k : Nat) (fuel r : Nat) : Nat :=
  match fuel with
  | 0 => r
  | fuel + 1 => if k + r + 1 ≤ 2 ^ r then r else searchChecks k fuel (r + 1)

/-- R, the smallest `r` with `2^r >= K + r + 1` (R111). -/
def checkCount (n : Nat) : Nat := searchChecks (extWidth n) (extWidth n + 1) 0

/-- T of the Hamming strategy (R112). -/
def hamWidth (n : Nat) : Nat := extWidth n + checkCount n

/-- T of the parity strategy (R100). -/
abbrev parWidth (n : Nat) : Nat := n + 1

/-- T of the bound strategy, the width of ENC (R8, R20). With no strategy there is no EncodedBlock: width 0
(log entry 6). -/
abbrev encWidth (st : Option Strategy) (n : Nat) : Nat :=
  match st with
  | none => 0
  | some .parity => parWidth n
  | some .hamming => hamWidth n

end Sys2Proof.Machine
end

