-- ==== Sys2Proof/Machine/State.lean ====
section
/-! DEFINITION. What the block holds (10_state.md), the operands and results on its ports (30_encoding.md R69), and the
state after reset (R34). Widths are in the types, as the spec has them fixed at elaboration (R70). -/

namespace Sys2Proof.Machine

/-- The precondition violations of 60_exceptions.md. Each is TAKEN: the operation that raises it goes to a next state
in which the FAULT latch holds its code (R167), so none of these is ever the outcome of a step (log entry 4). Safe:
an operation that raises one gives no result. -/
inductive Fault
  /-- Raised by BV.TEST, BV.FLIP, CHUNK.CORRUPT (R161). -/
  | indexOutOfRange
  /-- Raised by BV.FROMBUF (R162). -/
  | lengthExceedsWidth
  /-- Raised by BV.TOBUF, BV.FROMBUF (R163). -/
  | bufferTooSmall
  /-- Raised by CHUNK.INIT when no strategy is bound (R164), and by the other CHUNK operations there (log entry 6). -/
  | nullStrategy
  /-- Raised by the command decoder on a reserved code (R165). -/
  | illegalCommand
  deriving DecidableEq, Repr

/-- Reasons to give an operation no meaning. Safe: nothing can be proved of what follows a refusal. -/
inductive Refusal
  /-- An operation that has no meaning yet; raised by `exec`'s arms only. No arm of this model raises it. -/
  | notModelled (mnemonic : String)
  deriving DecidableEq, Repr

/-- The input ports (R69), as the host drives them for one operation. -/
structure Ports (p : Params) where
  /-- W, the declared width of the BV unit the operation is presented to (40_bitvector.md; log entry 8). -/
  bvW : Nat
  /-- M, the target width of the BV.RESIZE unit (R82; log entry 8). -/
  bvM : Nat
  /-- `a : bits(W)` -/
  a : Bits bvW
  /-- `buf`, a byte sequence (R15, R41) -/
  buf : List Byte
  /-- `len`, an unbounded natural number -/
  len : Nat
  /-- `idx`, an unbounded natural number -/
  idx : Nat
  /-- `d : bits(N)` -/
  d : Bits p.n
  /-- `w : bits(T)` of the parity decoder (log entry 9) -/
  wPar : Bits (parWidth p.n)
  /-- `w : bits(T)` of the Hamming units (log entry 9) -/
  wHam : Bits (hamWidth p.n)
  deriving DecidableEq, Repr

/-- The ports before the host has driven them. DESIGN CHOICE, log entry 8. -/
def Ports.idle (p : Params) : Ports p :=
  { bvW := p.n, bvM := p.n, a := 0#_, buf := List.replicate (ceilBytes p.n) 0#8, len := 0, idx := 0, d := 0#_, wPar := 0#_, wHam := 0#_ }

/-- One operation as the host presents it: the command word and the operands beside it (R68, R69). -/
structure Request (p : Params) where
  cmd : Cmd
  ports : Ports p
  deriving DecidableEq, Repr

/-- What a codec reports (R28): no ground truth, so no `correct`. -/
structure CodecResult (n t : Nat) where
  decodedBits : Bits n
  storedBits : Bits t
  success : Bool
  errorDetected : Bool
  numCorruptBits : Nat
  numCorrectedBits : Nat
  deriving DecidableEq, Repr

/-- What CHUNK.RETRIEVE reports (R28): a codec's report, with the ground truth and the comparison against it. -/
structure ChunkResult (n t : Nat) extends CodecResult n t where
  originalBits : Bits n
  correct : Bool
  deriving DecidableEq, Repr

/-- The output ports (R69): each operation drives one of them, or none. -/
inductive Result
  /-- No result. -/
  | nothing
  /-- `q : bits(w)` -/
  | q (w : Nat) (v : Bits w)
  /-- `buf` -/
  | buf (bytes : List Byte)
  /-- `n`, a natural number -/
  | n (k : Nat)
  /-- `b`, a bit -/
  | b (x : Bool)
  /-- `c : bits(r)` -/
  | c (r : Nat) (v : Bits r)
  /-- `res : CodecResult` -/
  | codec (n t : Nat) (res : CodecResult n t)
  /-- `res : ChunkResult` -/
  | chunk (n t : Nat) (res : ChunkResult n t)
  deriving DecidableEq, Repr

/-- One block with its registers (R20 to R23), the host's side and the outputs. -/
structure State where
  /-- N, STRAT and OOR_POLICY: configuration (R22, R26), written by no operation. -/
  params : Params
  /-- ENC : bits(T), the stored EncodedBlock (R20). -/
  enc : Bits (encWidth params.strat params.n)
  /-- ORIG : bits(N), the ground truth (R21). -/
  orig : Bits params.n
  /-- FAULT : bits(3), the sticky latch; 0 when no fault has occurred (R23). -/
  fault : BitVec 3
  /-- The `info` recorded with the latched fault (60_exceptions.md section 2; log entry 4). -/
  faultInfo : Option Nat
  /-- The operands of the operation being executed (R69). -/
  ports : Ports params
  /-- Operations issued and not yet taken, oldest first (R25, R50; log entry 7). -/
  pending : List (Request params)
  /-- The result of the last operation (R28, R69; log entries 4 and 7). -/
  out : Result
  deriving DecidableEq, Repr

/-- A block right after reset, which is CHUNK.INIT (R34, R141, R180, R184), for any parameters. Where no strategy is
bound CHUNK.INIT has raised NullStrategy, code 4 (R164; log entry 6). -/
def State.resetOf (p : Params) : State :=
  { params := p, enc := 0#_, orig := 0#_, fault := if p.strat = none then 4#3 else 0#3, faultInfo := none, ports := Ports.idle p, pending := [], out := .nothing }

/-- The block of `Config.params` right after reset (R34). -/
def State.reset : State := State.resetOf Config.params

end Sys2Proof.Machine
end

