-- ==== Sys2Proof/Machine/Ops.lean ====
section
/-! DEFINITION. The shared operations: presenting an operation, taking a fault (R167), ignoring an operation while a
fault is latched (R168), delivering a result, and loading the two registers. -/

namespace Sys2Proof.Machine

/-- The code of a fault (60_exceptions.md section 2; 0 is no fault). -/
def Fault.code (f : Fault) : BitVec 3 :=
  match f with
  | .indexOutOfRange => 1#3
  | .lengthExceedsWidth => 2#3
  | .bufferTooSmall => 3#3
  | .nullStrategy => 4#3
  | .illegalCommand => 5#3

/-- A fault with the `info` it records (R16). -/
abbrev Violation := Fault × Option Nat

/-- Fault entry (R16, R167): no result, no register written but FAULT, and the first fault wins. -/
def raise (v : Violation) (s : State) : State :=
  { s with fault := if s.fault = 0#3 then v.1.code else s.fault, faultInfo := if s.fault = 0#3 then v.2 else s.faultInfo, out := .nothing }

/-- An operation presented while a fault is latched (R168): no result and no state change. -/
def ignore (s : State) : State := { s with out := .nothing }

/-- The operation's result on the output ports (R69); the registers stay. -/
def deliver (r : Result) (s : State) : State := { s with out := r }

/-- ENC and ORIG replaced whole; no result (R141, R142). -/
def loadCell (s : State) (enc : Bits (encWidth s.params.strat s.params.n)) (orig : Bits s.params.n) : State :=
  { s with enc := enc, orig := orig, out := .nothing }

/-- ENC replaced, ORIG kept; no result (R143). -/
def loadEnc (s : State) (enc : Bits (encWidth s.params.strat s.params.n)) : State :=
  { s with enc := enc, out := .nothing }

/-- FAULT cleared, with what was recorded beside it (R141, R168). -/
def clearFault (s : State) : State := { s with fault := 0#3, faultInfo := none }

/-- The host presents an operation (R50): its operands stand on the ports, and the later ones wait. -/
def present (s : State) (ports : Ports s.params) (rest : List (Request s.params)) : State :=
  { s with ports := ports, pending := rest }

/-- The first violated precondition, in the order the pseudocode checks them (R166). -/
def firstViolation (checks : List (Option Violation)) : Option Violation :=
  match checks with
  | [] => none
  | some v :: _ => some v
  | none :: rest => firstViolation rest

/-- Run an operation that is not the reset: ignored while a fault is latched (R168); otherwise its checks are made in
order, and it either raises the first that fails (R166) or goes to `done`. -/
def operate (s : State) (checks : List (Option Violation)) (done : State) : Host.Outcome State Fault Refusal :=
  .next (if s.fault = 0#3 then
      match firstViolation checks with
      | some v => raise v s
      | none => done
    else ignore s)

/-- A reserved command code (R72, R165): decided before any operand is looked at (R166). -/
def illegalCommand (c : Cmd) (s : State) : Host.Outcome State Fault Refusal :=
  operate s [some (.illegalCommand, some c.toNat)] s

end Sys2Proof.Machine
end

