-- ==== Sys2Proof/Machine/Operands.lean ====
section
/-! DEFINITION. The run-time operand checks (R46, R70): every operand is presented whole on its port at its declared
width, so the range checks of R161 to R163 and the strategy check of R164 are the only ones. -/

namespace Sys2Proof.Machine

/-- `if idx >= W then raise IndexOutOfRange(idx)` (R85, R86, R143, R161). -/
def checkIndex (idx w : Nat) : Option Violation :=
  if w ≤ idx then some (.indexOutOfRange, some idx) else none

/-- `if len > W then raise LengthExceedsWidth(len)` (R80, R162). -/
def checkLength (len w : Nat) : Option Violation :=
  if w < len then some (.lengthExceedsWidth, some len) else none

/-- `if len(buf) < ceil(bits/8) then raise BufferTooSmall(len(buf))` (R80, R81, R163). -/
def checkBuffer (buf : List Byte) (bits : Nat) : Option Violation :=
  if buf.length < ceilBytes bits then some (.bufferTooSmall, some buf.length) else none

/-- `if STRAT not in {PARITY, HAMMING} then raise NullStrategy()` (R141, R164). -/
def checkStrategy (st : Option Strategy) : Option Violation :=
  if st = none then some (.nullStrategy, none) else none

end Sys2Proof.Machine
end

