-- ==== Sys2Proof/Machine/Flags.lean ====
section
/-! DEFINITION. The outcome flags of a decode (10_state.md R29 to R32). The block has no status register: these are
fields of the result, rebuilt by every decode. -/

namespace Sys2Proof.Machine

/-- The four outcome fields a codec computes (R28). -/
structure Flags where
  success : Bool
  errorDetected : Bool
  numCorruptBits : Nat
  numCorrectedBits : Nat
  deriving DecidableEq, Repr

/-- The four ways HAM.DEC can go (R121). -/
inductive Path
  /-- NONE, syndrome 0 (R122). -/
  | noError
  /-- SINGLE, corrected (R125). -/
  | single
  /-- DOUBLE, detected (R126). -/
  | double
  /-- OUTOFRANGE, the syndrome names no position (R127). -/
  | outOfRange
  deriving DecidableEq, Repr

/-- The parity decoder's flags, from `parity(w)` (R102; the losing clause of C2 is discarded). -/
def parityFlags (p : Bool) : Flags :=
  { success := !p, errorDetected := p, numCorruptBits := p.toNat, numCorrectedBits := 0 }

/-- The Hamming decoder's flags on each path: R122 (`num_corrected_bits` by D9, log entry 10), R125, R126, R127
(D8, log entry 3). -/
def pathFlags (path : Path) : Flags :=
  match path with
  | .noError => { success := true, errorDetected := false, numCorruptBits := 0, numCorrectedBits := 0 }
  | .single => { success := true, errorDetected := true, numCorruptBits := 1, numCorrectedBits := 1 }
  | .double => { success := false, errorDetected := true, numCorruptBits := 2, numCorrectedBits := 0 }
  | .outOfRange => { success := false, errorDetected := true, numCorruptBits := 2, numCorrectedBits := 0 }

/-- Path OUTOFRANGE with OOR_POLICY left open (R127, U2): a check is violated and nothing was corrected; the other two
flags are open values. Log entry 3. -/
def openFlags (n w : Nat) : Flags :=
  { success := Config.oorSuccess n w, errorDetected := true, numCorruptBits := (Config.oorCorrupt n w).val, numCorrectedBits := 0 }

/-- A codec's result bundle from its parts (R28). -/
def bundle {n t : Nat} (decoded : Bits n) (stored : Bits t) (f : Flags) : CodecResult n t :=
  { decodedBits := decoded, storedBits := stored, success := f.success, errorDetected := f.errorDetected, numCorruptBits := f.numCorruptBits, numCorrectedBits := f.numCorrectedBits }

/-- `correct` (R31): decided by the Chunk alone, against the ground truth. -/
def correctFlag {n : Nat} (decoded orig : Bits n) : Bool := decoded == orig

end Sys2Proof.Machine
end

