-- ==== Sys2Proof/Machine/BitVector.lean ====
section
/-! DEFINITION. The bit-vector units, BV family (40_bitvector.md). Combinational: no register is read or written (R24). -/

namespace Sys2Proof.Machine

/-- The vector BV.FROMBUF reads (R80): only the bytes `0 .. ceil(len/8)-1` are read (R47). -/
def fromBuffer (w : Nat) (buf : List Byte) (len : Nat) : Bits w :=
  bitsOf w fun i => decide (i < len) && (memRead buf 0 (ceilBytes len)).getLsbD i

/-- The buffer BV.TOBUF leaves (R81): the bytes `0 .. ceil(W/8)-1` are written whole, pad bits zero (D13, log entry 11). -/
def toBuffer {w : Nat} (a : Bits w) (buf : List Byte) : List Byte :=
  memWrite buf 0 (ceilBytes w) (resize (8 * ceilBytes w) a)

/-- BV.FROMBUF (R80). -/
def execBvFromBuf (s : State) : Host.Outcome State Fault Refusal :=
  operate s [checkLength s.ports.len s.ports.bvW, checkBuffer s.ports.buf s.ports.len]
    (deliver (.q s.ports.bvW (fromBuffer s.ports.bvW s.ports.buf s.ports.len)) s)

/-- BV.TOBUF (R81). -/
def execBvToBuf (s : State) : Host.Outcome State Fault Refusal :=
  operate s [checkBuffer s.ports.buf s.ports.bvW] (deliver (.buf (toBuffer s.ports.a s.ports.buf)) s)

/-- BV.RESIZE (R82). -/
def execBvResize (s : State) : Host.Outcome State Fault Refusal :=
  operate s [] (deliver (.q s.ports.bvM (resize s.ports.bvM s.ports.a)) s)

/-- BV.POPCNT (R83). -/
def execBvPopcnt (s : State) : Host.Outcome State Fault Refusal :=
  operate s [] (deliver (.n (popcount s.ports.a)) s)

/-- BV.PARITY (R84). -/
def execBvParity (s : State) : Host.Outcome State Fault Refusal :=
  operate s [] (deliver (.b (parity s.ports.a)) s)

/-- BV.TEST (R85). -/
def execBvTest (s : State) : Host.Outcome State Fault Refusal :=
  operate s [checkIndex s.ports.idx s.ports.bvW] (deliver (.b (testbit s.ports.a s.ports.idx)) s)

/-- BV.FLIP (R86): a new vector (D24). -/
def execBvFlip (s : State) : Host.Outcome State Fault Refusal :=
  operate s [checkIndex s.ports.idx s.ports.bvW] (deliver (.q s.ports.bvW (flipbit s.ports.a s.ports.idx)) s)

end Sys2Proof.Machine
end

