-- ==== Sys2Proof/Machine/Hamming.lean ====
section
/-! DEFINITION. The Hamming codec, HAM family (42_hamming.md; layout R60 to R64 of 30_encoding.md). A position `p` is
1-based and is stored at bit `p - 1` (R60). -/

namespace Sys2Proof.Machine

/-- The next data position above `p`, for `p >= 2`: the next number that is no power of two (R62). -/
def nextDataPos (p : Nat) : Nat := if isPow2 (p + 1) then p + 2 else p + 1

/-- `DPOS[j]`, the `(j+1)`-th smallest position that is no power of two: 3, 5, 6, 7, 9, ... (R62). -/
def dataPos (j : Nat) : Nat :=
  match j with
  | 0 => nextDataPos 2
  | j + 1 => nextDataPos (dataPos j)

/-- `p` is in `COV[i]`: `p AND 2^i != 0` (R64). -/
def covers (i p : Nat) : Bool := (p &&& 2 ^ i) != 0

/-- The extended data block `e = {parity(d), d}` (R63). -/
def extend {n : Nat} (d : Bits n) : Bits (extWidth n) := BitVec.cons (parity d) d

/-- HAM.PLACE (R115): `e[j]` at position `DPOS[j]`, every check position 0 (D26). -/
def place {n : Nat} (d : Bits n) : Bits (hamWidth n) :=
  assignBits 0#_ (fun j => dataPos j - 1) (fun j => (extend d).getLsbD j) (extWidth n)

/-- HAM.CHECKS (R116): check `i` is the parity of the bits at the positions `COV[i]`, its own position included. -/
def checks (n : Nat) (w : Bits (hamWidth n)) : Bits (checkCount n) :=
  bitsOf (checkCount n) fun i => odd (countBelow (fun k => covers i (k + 1) && w.getLsbD k) (hamWidth n))

/-- `for i in 0 .. R-1: q[2^i - 1] <- c[i]` (R117). -/
def insertChecks (n : Nat) (w : Bits (hamWidth n)) (c : Bits (checkCount n)) : Bits (hamWidth n) :=
  assignBits w (fun i => 2 ^ i - 1) (fun i => c.getLsbD i) (checkCount n)

/-- HAM.ENC (R117). -/
def hamEncode {n : Nat} (d : Bits n) : Bits (hamWidth n) :=
  insertChecks n (place d) (checks n (place d))

/-- `EXT(w)`: the check positions stripped (R118). -/
def extBlock (n : Nat) (w : Bits (hamWidth n)) : Bits (extWidth n) :=
  bitsOf (extWidth n) fun j => w.getLsbD (dataPos j - 1)

/-- HAM.EXTRACT (R118): `EXT(w)[N-1:0]`. -/
def extract (n : Nat) (w : Bits (hamWidth n)) : Bits n := resize n (extBlock n w)

/-- The syndrome (R119): the check results read as a number. -/
def syndrome (n : Nat) (w : Bits (hamWidth n)) : Nat := (checks n w).toNat

/-- The agreement test (R124): `e2[N] = parity(e2[N-1:0])`. -/
def agrees (n : Nat) (e : Bits (extWidth n)) : Bool := e.getLsbD n == parity (resize n e)

/-- The word with the bit the syndrome points to inverted, tentatively (R123). -/
def tentative (n : Nat) (w : Bits (hamWidth n)) : Bits (hamWidth n) := flipbit w (syndrome n w - 1)

/-- Which way the decoder goes (R121). -/
def decodePath (n : Nat) (w : Bits (hamWidth n)) : Path :=
  if syndrome n w = 0 then .noError
  else if syndrome n w ≤ hamWidth n then
    if agrees n (extBlock n (tentative n w)) then .single else .double
  else .outOfRange

/-- Path OUTOFRANGE (R127): the values decided there, or open ones (U2, log entry 3). -/
def outOfRangeResult (oor : OorPolicy) (n : Nat) (w : Bits (hamWidth n)) : CodecResult n (hamWidth n) :=
  match oor with
  | .decided => bundle (extract n w) w (pathFlags .outOfRange)
  | .agnostic => bundle (Config.oorDecoded n w.toNat) w (openFlags n w.toNat)

/-- HAM.DEC (R121): the data come from the corrected word on path SINGLE (R125) and from the stored word on the other
paths (R122, R126, R127). -/
def hamDecode (oor : OorPolicy) (n : Nat) (w : Bits (hamWidth n)) : CodecResult n (hamWidth n) :=
  match decodePath n w with
  | .noError => bundle (extract n w) w (pathFlags .noError)
  | .single => bundle (extract n (tentative n w)) w (pathFlags .single)
  | .double => bundle (extract n w) w (pathFlags .double)
  | .outOfRange => outOfRangeResult oor n w

/-- HAM.ENC (R117). -/
def execHamEnc (s : State) : Host.Outcome State Fault Refusal :=
  operate s [] (deliver (.q (hamWidth s.params.n) (hamEncode s.ports.d)) s)

/-- HAM.DEC (R121). -/
def execHamDec (s : State) : Host.Outcome State Fault Refusal :=
  operate s [] (deliver (.codec s.params.n (hamWidth s.params.n) (hamDecode s.params.oor s.params.n s.ports.wHam)) s)

/-- HAM.PLACE (R115). -/
def execHamPlace (s : State) : Host.Outcome State Fault Refusal :=
  operate s [] (deliver (.q (hamWidth s.params.n) (place s.ports.d)) s)

/-- HAM.CHECKS (R116). -/
def execHamChecks (s : State) : Host.Outcome State Fault Refusal :=
  operate s [] (deliver (.c (checkCount s.params.n) (checks s.params.n s.ports.wHam)) s)

/-- HAM.EXTRACT (R118). -/
def execHamExtract (s : State) : Host.Outcome State Fault Refusal :=
  operate s [] (deliver (.q s.params.n (extract s.params.n s.ports.wHam)) s)

end Sys2Proof.Machine
end

