-- ==== Sys2Proof/Machine/Parity.lean ====
section
/-! DEFINITION. The parity-bit codec, PAR family (41_parity.md; layout R67 of 30_encoding.md). -/

namespace Sys2Proof.Machine

/-- `{d, parity(d)}`: bit 0 is the parity bit, the data above it (R67, R101). -/
def parEncode {n : Nat} (d : Bits n) : Bits (parWidth n) := BitVec.concat d (parity d)

/-- `w[N:1]`: every bit but bit 0, shifted down, whether or not an error was detected (R102). -/
def parData (n : Nat) (w : Bits (parWidth n)) : Bits n := BitVec.extractLsb' 1 n w

/-- The parity decoder (R102). -/
def parDecode (n : Nat) (w : Bits (parWidth n)) : CodecResult n (parWidth n) :=
  bundle (parData n w) w (parityFlags (parity w))

/-- PAR.ENC (R101). -/
def execParEnc (s : State) : Host.Outcome State Fault Refusal :=
  operate s [] (deliver (.q (parWidth s.params.n) (parEncode s.ports.d)) s)

/-- PAR.DEC (R102). -/
def execParDec (s : State) : Host.Outcome State Fault Refusal :=
  operate s [] (deliver (.codec s.params.n (parWidth s.params.n) (parDecode s.params.n s.ports.wPar)) s)

end Sys2Proof.Machine
end

