-- ==== Sys2Proof/Machine/Chunk.lean ====
section
/-! DEFINITION. The Chunk storage cell, CHUNK family (43_chunk.md). -/

namespace Sys2Proof.Machine

/-- `ENCODE(d)` of the bound strategy (R140). With none bound the EncodedBlock is empty (log entry 6). -/
def encodeFor (st : Option Strategy) {n : Nat} (d : Bits n) : Bits (encWidth st n) :=
  match st with
  | none => BitVec.nil
  | some .parity => parEncode d
  | some .hamming => hamEncode d

/-- `DECODE(w)` of the bound strategy (R140); nothing where none is bound. -/
def decodeFor (st : Option Strategy) (oor : OorPolicy) (n : Nat) (w : Bits (encWidth st n)) :
    Option (CodecResult n (encWidth st n)) :=
  match st with
  | none => none
  | some .parity => some (parDecode n w)
  | some .hamming => some (hamDecode oor n w)

/-- What CHUNK.RETRIEVE reports, from the codec's report, ENC and ORIG (R145). -/
def retrieved {n t : Nat} (r : CodecResult n t) (enc : Bits t) (orig : Bits n) : ChunkResult n t :=
  { toCodecResult := { r with storedBits := enc }, originalBits := orig, correct := correctFlag r.decodedBits orig }

/-- The result of CHUNK.RETRIEVE (R145); nothing where no strategy is bound, which `checkStrategy` has caught. -/
def retrieveResult (s : State) : Result :=
  match decodeFor s.params.strat s.params.oor s.params.n s.enc with
  | some r => .chunk s.params.n (encWidth s.params.strat s.params.n) (retrieved r s.enc s.orig)
  | none => .nothing

/-- CHUNK.INIT (R141), the reset: the one operation that executes while a fault is latched (R168). -/
def execChunkInit (s : State) : Host.Outcome State Fault Refusal :=
  match checkStrategy s.params.strat with
  | some v => .next (raise v s)
  | none => .next (clearFault (loadCell s (encodeFor s.params.strat 0#_) 0#_))

/-- CHUNK.STORE (R142). -/
def execChunkStore (s : State) : Host.Outcome State Fault Refusal :=
  operate s [checkStrategy s.params.strat] (loadCell s (encodeFor s.params.strat s.ports.d) s.ports.d)

/-- CHUNK.CORRUPT (R143); the bound is T of the bound strategy (C5, D25). -/
def execChunkCorrupt (s : State) : Host.Outcome State Fault Refusal :=
  operate s [checkStrategy s.params.strat, checkIndex s.ports.idx (encWidth s.params.strat s.params.n)]
    (loadEnc s (flipbit s.enc s.ports.idx))

/-- CHUNK.RETRIEVE (R145): read-only. -/
def execChunkRetrieve (s : State) : Host.Outcome State Fault Refusal :=
  operate s [checkStrategy s.params.strat] (deliver (retrieveResult s) s)

end Sys2Proof.Machine
end

