-- ==== Sys2Proof/Machine/Dispatch.lean ====
section
/-! DEFINITION. One arm per operation of the opcode map (R71). -/

namespace Sys2Proof.Machine

def exec (i : Instr) (s : State) : Host.Outcome State Fault Refusal :=
  match i with
  | .bvFromBuf => Sys2Proof.Machine.execBvFromBuf s
  | .bvToBuf => Sys2Proof.Machine.execBvToBuf s
  | .bvResize => Sys2Proof.Machine.execBvResize s
  | .bvPopcnt => Sys2Proof.Machine.execBvPopcnt s
  | .bvParity => Sys2Proof.Machine.execBvParity s
  | .bvTest => Sys2Proof.Machine.execBvTest s
  | .bvFlip => Sys2Proof.Machine.execBvFlip s
  | .parEnc => Sys2Proof.Machine.execParEnc s
  | .parDec => Sys2Proof.Machine.execParDec s
  | .hamEnc => Sys2Proof.Machine.execHamEnc s
  | .hamDec => Sys2Proof.Machine.execHamDec s
  | .hamPlace => Sys2Proof.Machine.execHamPlace s
  | .hamChecks => Sys2Proof.Machine.execHamChecks s
  | .hamExtract => Sys2Proof.Machine.execHamExtract s
  | .chunkInit => Sys2Proof.Machine.execChunkInit s
  | .chunkStore => Sys2Proof.Machine.execChunkStore s
  | .chunkCorrupt => Sys2Proof.Machine.execChunkCorrupt s
  | .chunkRetrieve => Sys2Proof.Machine.execChunkRetrieve s

end Sys2Proof.Machine
end

