-- ==== Sys2Proof/Machine/Step.lean ====
section
/-! DEFINITION. One step of the block: it takes the oldest operation the host has issued and executes it (R25, R50).
There is no program counter and no stored program; log entry 7 says how a program comes to run. -/

namespace Sys2Proof.Machine

/-- The command decoder: a reserved code raises IllegalCommand (R72, R165). -/
def execCommand (c : Cmd) (s : State) : Host.Outcome State Fault Refusal :=
  match decode c with
  | some i => exec i s
  | none => illegalCommand c s

/-- The oldest issued operation, with its operands on the ports. With nothing issued the block waits (R182). -/
def step (s : State) : Host.Outcome State Fault Refusal :=
  match s.pending with
  | [] => .next s
  | r :: rest => execCommand r.cmd (present s r.ports rest)

/-- `s` with the host presenting the operation whose command word is `w` (`nbits` bits of it) next, the operands as the
ports now show them. -/
def State.withFetchWord (s : State) (nbits w : Nat) : State :=
  { s with pending := { cmd := BitVec.ofNat 8 (w % 2 ^ nbits), ports := s.ports } :: s.pending }

end Sys2Proof.Machine
end

