-- ==== Sys2Proof/Safety.lean ====
section
/-! DEFINITION. The invariant every state of a run meets, the states a block can come to, and the terms the statements
use. A run is fault-free while FAULT stays 0 (R167: 'every claim about a run takes "no fault" as a premise'). -/

namespace Sys2Proof.Machine

/-- The FAULT latch holds a code of 60_exceptions.md section 2, and `info` is recorded with exactly the codes that
record one. -/
def State.FaultRecorded (s : State) : Prop :=
  s.fault.toNat ≤ 5 ∧ (s.faultInfo = none ↔ s.fault = 0#3 ∨ s.fault = 4#3)

/-- A decode's report is in the ranges of R28 and R32 and agrees with itself: where no error was detected it succeeded
and counts no corrupt bit, and where a bit was corrected an error was detected and it succeeded. -/
def CodecResult.Coherent {n t : Nat} (r : CodecResult n t) : Prop :=
  r.numCorruptBits ≤ 2 ∧ r.numCorrectedBits ≤ 1 ∧
  (r.errorDetected = false → r.success = true ∧ r.numCorruptBits = 0) ∧
  (r.numCorrectedBits = 1 → r.errorDetected = true ∧ r.success = true)

/-- What the output ports show is coherent, and `correct` is the comparison with the ground truth (R31). -/
def Result.Coherent (r : Result) : Prop :=
  match r with
  | .codec _ _ res => res.Coherent
  | .chunk _ _ res => res.toCodecResult.Coherent ∧ (res.correct = true ↔ res.decodedBits = res.originalBits)
  | .nothing => True
  | .q _ _ => True
  | .buf _ => True
  | .n _ => True
  | .b _ => True
  | .c _ _ => True

/-- The invariant of the block: the fault record is legal (R23), a block with no strategy has its NullStrategy fault
latched (R164), a latched fault goes with no result (R167, R168), and results are coherent (R28 to R32). -/
def State.Inv (s : State) : Prop :=
  s.FaultRecorded ∧ (s.params.strat = none → s.fault ≠ 0#3) ∧ (s.fault ≠ 0#3 → s.out = .nothing) ∧ s.out.Coherent

/-- The states a block with parameters `p` can come to: from reset, by the host issuing operations and by steps. -/
inductive Reachable (p : Params) : State → Prop
  | reset : Reachable p (State.resetOf p)
  | issue (s : State) (r : Request s.params) : Reachable p s → Reachable p { s with pending := s.pending ++ [r] }
  | step (s t : State) : Reachable p s → step s = .next t → Reachable p t

/-- The XOR of the positions of the set bits of a word of `t` bits (R116 (d), R131). -/
def positionsXor (t : Nat) (w : Bits t) : Nat :=
  ((List.range t).filter fun k => w.getLsbD k).foldl (fun x k => x ^^^ (k + 1)) 0

/-- `D(x)` of R130: `x` is a data position of a block of `t` bits. -/
def isDataPos (t x : Nat) : Bool := decide (1 ≤ x) && decide (x ≤ t) && !isPow2 x

/-- `s` with the given word on the parity decoder's port `w`. -/
def State.withWPar (s : State) (w : Bits (parWidth s.params.n)) : State := { s with ports := { s.ports with wPar := w } }

/-- `s` with the given word on the Hamming units' port `w`. -/
def State.withWHam (s : State) (w : Bits (hamWidth s.params.n)) : State := { s with ports := { s.ports with wHam := w } }

/-- A block with a strategy bound, no fault latched and the given registers: every state of a Chunk in which its
operations execute has this form. -/
def cell (n : Nat) (st : Strategy) (oor : OorPolicy) (enc : Bits (encWidth (some st) n)) (orig : Bits n)
    (ports : Ports ⟨n, some st, oor⟩) (pending : List (Request ⟨n, some st, oor⟩)) (info : Option Nat) (out : Result) : State :=
  { params := ⟨n, some st, oor⟩, enc := enc, orig := orig, fault := 0#3, faultInfo := info, ports := ports, pending := pending, out := out }

end Sys2Proof.Machine
end

