-- ==== Sys2Proof/Certificates/Slice0/Obligations.lean ====
section
/-! DEFINITION. The statements for the provers. Where a statement concludes `exec i s = .next { s with … }` the equation
is the operation's completion, its result and its whole frame at once: every field of State not named in the braces is
unchanged. Three fields are the model's own places for what the spec gives no register: `ports`/`pending` (log entries 7
and 8), `out` (log entry 7) and `faultInfo` (log entry 4). The premise `s.fault = 0#3` is the spec's own decision D10
(a latched fault stops execution, log entry 4). -/

open Sys2Proof Sys2Proof.Machine

/-! ### The command word and the step -/

/-- R71, R75: an operation's word decodes to it, and only that word does. -/
def Obligations.CommandWordsRoundTrip : Prop :=
  (∀ i : Instr, i.wf = true ∧ decode (encode i) = some i) ∧ ∀ (c : Cmd) (i : Instr), decode c = some i → encode i = c

/-- R71: the codes of the opcode map, written out. -/
def Obligations.OpcodeMapCodes : Prop :=
  decode 0x00#8 = some .bvFromBuf ∧ decode 0x01#8 = some .bvToBuf ∧ decode 0x02#8 = some .bvResize ∧
  decode 0x03#8 = some .bvPopcnt ∧ decode 0x04#8 = some .bvParity ∧ decode 0x05#8 = some .bvTest ∧
  decode 0x06#8 = some .bvFlip ∧ decode 0x10#8 = some .parEnc ∧ decode 0x11#8 = some .parDec ∧
  decode 0x20#8 = some .hamEnc ∧ decode 0x21#8 = some .hamDec ∧ decode 0x22#8 = some .hamPlace ∧
  decode 0x23#8 = some .hamChecks ∧ decode 0x24#8 = some .hamExtract ∧ decode 0x30#8 = some .chunkInit ∧
  decode 0x31#8 = some .chunkStore ∧ decode 0x32#8 = some .chunkCorrupt ∧ decode 0x33#8 = some .chunkRetrieve

/-- R72, R165: the reserved codes, 238 of them, raise IllegalCommand and change nothing else of the block. The code 5 and
the recorded `cmd` are the spec's own (D11, D21; log entry 4). -/
def Obligations.ReservedCodesRaiseIllegalCommand : Prop :=
  ((List.range 256).filter fun k => (decode (BitVec.ofNat 8 k)).isNone).length = 238 ∧
  ∀ (s : State) (r : Request s.params) (rest : List (Request s.params)), s.pending = r :: rest → s.fault = 0#3 →
    (4 ≤ r.cmd.toNat / 16 ∨ (r.cmd.toNat / 16 = 0 ∧ 7 ≤ r.cmd.toNat % 16) ∨
      (r.cmd.toNat / 16 = 1 ∧ 2 ≤ r.cmd.toNat % 16) ∨ (r.cmd.toNat / 16 = 2 ∧ 5 ≤ r.cmd.toNat % 16) ∨
      (r.cmd.toNat / 16 = 3 ∧ 4 ≤ r.cmd.toNat % 16)) →
    step s = .next { s with ports := r.ports, pending := rest, fault := 5#3, faultInfo := some r.cmd.toNat, out := .nothing }

/-- R25, R50: a step takes the oldest issued operation, puts its operands on the ports and executes what its command
word decodes to. The queue is the model's own (log entry 7). -/
def Obligations.StepRunsDecodedOperation : Prop :=
  ∀ (s : State) (r : Request s.params) (rest : List (Request s.params)) (i : Instr),
    s.pending = r :: rest → decode r.cmd = some i →
    step s = exec i { s with ports := r.ports, pending := rest }

/-- R182: with nothing issued the block waits. The model's choice of what waiting is: log entry 7. -/
def Obligations.IdleBlockWaits : Prop :=
  ∀ s : State, s.pending = [] → step s = .next s

/-- R22, R48, R50: a step with an operation issued completes, takes exactly that operation, and changes neither the
parameters nor the operations that wait. -/
def Obligations.StepTakesOneOperation : Prop :=
  ∀ (s : State) (r : Request s.params) (rest : List (Request s.params)), s.pending = r :: rest →
    ∃ (e : Bits (encWidth s.params.strat s.params.n)) (o : Bits s.params.n) (f : BitVec 3) (info : Option Nat) (x : Result),
      step s = .next { s with enc := e, orig := o, fault := f, faultInfo := info, ports := r.ports, pending := rest, out := x }

/-! ### Reset and the fault latch -/

/-- R34, R181: the registers after reset, for every block that can be built: all zero. ORIG and FAULT are the spec's
decisions D15 and D10 (log entries 4 and 5). A block with no strategy has NullStrategy latched (log entry 6). -/
def Obligations.ResetClearsRegisters : Prop :=
  ∀ p : Params, (State.resetOf p).params = p ∧ (State.resetOf p).enc = 0#_ ∧ (State.resetOf p).orig = 0#_ ∧
    (p.strat ≠ none → (State.resetOf p).fault = 0#3) ∧ (p.strat = none → (State.resetOf p).fault = 4#3)

/-- R141, R168, R180: CHUNK.INIT is the reset, whatever fault is latched: ENC is the encoding of the all-zero DataBlock,
which is all zeros for both strategies. ORIG = 0 and FAULT = 0 are decisions D15, D10 (log entries 4 and 5). -/
def Obligations.InitResetsCell : Prop :=
  ∀ s : State, s.params.strat ≠ none →
    exec .chunkInit s = .next { s with enc := 0#_, orig := 0#_, fault := 0#3, faultInfo := none, out := .nothing }

/-- R141, R164, R167: CHUNK.INIT with no strategy bound raises NullStrategy; the first fault wins (D10, D11; log entries
4 and 6). -/
def Obligations.InitWithoutStrategyRaises : Prop :=
  ∀ s : State, s.params.strat = none →
    exec .chunkInit s = .next { s with
      fault := if s.fault = 0#3 then 4#3 else s.fault,
      faultInfo := if s.fault = 0#3 then none else s.faultInfo,
      out := .nothing }

/-- The other CHUNK operations with no strategy bound raise NullStrategy: the model's choice, log entry 6 (DEDUCED from
R160). -/
def Obligations.ChunkWithoutStrategyRaises : Prop :=
  ∀ s : State, s.params.strat = none → s.fault = 0#3 →
    ∀ i, i = Instr.chunkStore ∨ i = Instr.chunkCorrupt ∨ i = Instr.chunkRetrieve →
      exec i s = .next { s with fault := 4#3, faultInfo := none, out := .nothing }

/-- R168: while a fault is latched every operation but CHUNK.INIT, and every reserved code, is ignored: no result and no
state change (D10, log entry 4). -/
def Obligations.FaultedBlockIgnores : Prop :=
  (∀ (s : State) (i : Instr), s.fault ≠ 0#3 → i ≠ .chunkInit → exec i s = .next { s with out := .nothing }) ∧
  ∀ (s : State) (r : Request s.params) (rest : List (Request s.params)), s.pending = r :: rest → s.fault ≠ 0#3 →
    r.cmd ≠ 0x30#8 → step s = .next { s with ports := r.ports, pending := rest, out := .nothing }

/-- R160 to R166: exactly when a step sets FAULT, and to which code. In particular no outcome of a decode sets it. The
codes are the spec's own (D11); code 4 for operations other than CHUNK.INIT is log entry 6. -/
def Obligations.FaultTable : Prop :=
  ∀ (s t : State) (r : Request s.params) (rest : List (Request s.params)), s.pending = r :: rest → s.fault = 0#3 →
    step s = .next t →
    (t.fault = 1#3 ↔ ((r.cmd = 0x05#8 ∨ r.cmd = 0x06#8) ∧ r.ports.bvW ≤ r.ports.idx) ∨
      (r.cmd = 0x32#8 ∧ s.params.strat ≠ none ∧ encWidth s.params.strat s.params.n ≤ r.ports.idx)) ∧
    (t.fault = 2#3 ↔ r.cmd = 0x00#8 ∧ r.ports.bvW < r.ports.len) ∧
    (t.fault = 3#3 ↔ (r.cmd = 0x00#8 ∧ r.ports.len ≤ r.ports.bvW ∧ r.ports.buf.length < (r.ports.len + 7) / 8) ∨
      (r.cmd = 0x01#8 ∧ r.ports.buf.length < (r.ports.bvW + 7) / 8)) ∧
    (t.fault = 4#3 ↔ s.params.strat = none ∧ (r.cmd = 0x30#8 ∨ r.cmd = 0x31#8 ∨ r.cmd = 0x32#8 ∨ r.cmd = 0x33#8)) ∧
    (t.fault = 5#3 ↔ decode r.cmd = none) ∧
    t.fault.toNat ≤ 5

/-- R23, R168: once set, FAULT keeps its value until a CHUNK.INIT is taken (D10, log entry 4). -/
def Obligations.FaultLatchIsSticky : Prop :=
  ∀ s t : State, s.fault ≠ 0#3 → step s = .next t →
    t.fault = s.fault ∨ (t.fault = 0#3 ∧ ∃ r rest, s.pending = r :: rest ∧ r.cmd = 0x30#8)

/-- The invariant holds at reset, for every parameters. -/
def Obligations.InvariantAtReset : Prop :=
  ∀ p : Params, (State.resetOf p).Inv

/-- Every step keeps the invariant (R23, R28 to R32, R164, R167). -/
def Obligations.StepKeepsInvariant : Prop :=
  ∀ s t : State, s.Inv → step s = .next t → t.Inv

/-- Every state a block can come to meets the invariant, and its parameters are those it was built with (R22). -/
def Obligations.ReachableStatesMeetInvariant : Prop :=
  ∀ (p : Params) (s : State), Reachable p s → s.Inv ∧ s.params = p

/-- R20, R21, R43: only CHUNK.INIT, CHUNK.STORE and CHUNK.CORRUPT write ENC, and CHUNK.CORRUPT does not touch ORIG. -/
def Obligations.RegistersWrittenOnlyByCell : Prop :=
  (∀ (s : State) (i : Instr), i ≠ .chunkInit → i ≠ .chunkStore → i ≠ .chunkCorrupt →
    ∃ (f : BitVec 3) (info : Option Nat) (x : Result),
      exec i s = .next { s with fault := f, faultInfo := info, out := x }) ∧
  ∀ s : State, ∃ (e : Bits (encWidth s.params.strat s.params.n)) (f : BitVec 3) (info : Option Nat),
      exec .chunkCorrupt s = .next { s with enc := e, fault := f, faultInfo := info, out := .nothing }

/-- R24, R171: what a BV, PAR or HAM operation answers depends on the operands and the parameters, never on ENC or
ORIG. -/
def Obligations.CodecsIgnoreRegisters : Prop :=
  ∀ (s : State) (i : Instr),
    i ≠ .chunkInit → i ≠ .chunkStore → i ≠ .chunkCorrupt → i ≠ .chunkRetrieve →
    ∃ (f : BitVec 3) (info : Option Nat) (x : Result),
      ∀ (e : Bits (encWidth s.params.strat s.params.n)) (o : Bits s.params.n),
        exec i { s with enc := e, orig := o } =
          .next { s with enc := e, orig := o, fault := f, faultInfo := info, out := x }

/-! ### The bit-vector units -/

/-- R80, R44, R47: BV.FROMBUF, with its checks met. -/
def Obligations.FromBufReadsBits : Prop :=
  ∀ s : State, s.fault = 0#3 → s.ports.len ≤ s.ports.bvW → (s.ports.len + 7) / 8 ≤ s.ports.buf.length →
    ∃ q : Bits s.ports.bvW, exec .bvFromBuf s = .next { s with out := .q s.ports.bvW q } ∧
      ∀ i < s.ports.bvW, q.getLsbD i =
        (decide (i < s.ports.len) && (s.ports.buf.getD (i / 8) 0#8).getLsbD (i % 8))

/-- R80, R162, R163, R166: when BV.FROMBUF faults; the width check comes first. Codes and `info` by D10 to D12, the
short buffer by D14 (log entries 4 and 12). -/
def Obligations.FromBufFaults : Prop :=
  ∀ s : State, s.fault = 0#3 →
    (s.ports.bvW < s.ports.len →
      exec .bvFromBuf s = .next { s with fault := 2#3, faultInfo := some s.ports.len, out := .nothing }) ∧
    (s.ports.len ≤ s.ports.bvW → s.ports.buf.length < (s.ports.len + 7) / 8 →
      exec .bvFromBuf s = .next { s with fault := 3#3, faultInfo := some s.ports.buf.length, out := .nothing })

/-- R81, R44, R47: BV.TOBUF. The bytes of the written range are written whole, the pad bits zero (D13, log entry 11);
every later byte is the caller's. -/
def Obligations.ToBufWritesBytes : Prop :=
  ∀ s : State, s.fault = 0#3 → (s.ports.bvW + 7) / 8 ≤ s.ports.buf.length →
    ∃ out : List Byte, exec .bvToBuf s = .next { s with out := .buf out } ∧ out.length = s.ports.buf.length ∧
      ∀ k < out.length, ∀ b < 8, (out.getD k 0#8).getLsbD b =
        if k < (s.ports.bvW + 7) / 8 then decide (8 * k + b < s.ports.bvW) && s.ports.a.getLsbD (8 * k + b)
        else (s.ports.buf.getD k 0#8).getLsbD b

/-- R81, R163: BV.TOBUF into a short buffer (codes by D10, D11; log entry 4). -/
def Obligations.ToBufFaults : Prop :=
  ∀ s : State, s.fault = 0#3 → s.ports.buf.length < (s.ports.bvW + 7) / 8 →
    exec .bvToBuf s = .next { s with fault := 3#3, faultInfo := some s.ports.buf.length, out := .nothing }

/-- R87: a buffer read with BV.FROMBUF and written back with BV.TOBUF has its first `len` bits, then zeros to the end of
the written range, then the caller's bytes. -/
def Obligations.BufferRoundTrip : Prop :=
  ∀ (s : State) (dst : List Byte), s.fault = 0#3 → s.ports.len ≤ s.ports.bvW →
    (s.ports.len + 7) / 8 ≤ s.ports.buf.length → (s.ports.bvW + 7) / 8 ≤ dst.length →
    ∃ (v : Bits s.ports.bvW) (out : List Byte),
      exec .bvFromBuf s = .next { s with out := .q s.ports.bvW v } ∧
      exec .bvToBuf { s with ports := { s.ports with a := v, buf := dst } } =
        .next { s with ports := { s.ports with a := v, buf := dst }, out := .buf out } ∧
      out.length = dst.length ∧
      (∀ i < s.ports.len, (out.getD (i / 8) 0#8).getLsbD (i % 8) = (s.ports.buf.getD (i / 8) 0#8).getLsbD (i % 8)) ∧
      (∀ i, s.ports.len ≤ i → i < 8 * ((s.ports.bvW + 7) / 8) → (out.getD (i / 8) 0#8).getLsbD (i % 8) = false) ∧
      ∀ k, (s.ports.bvW + 7) / 8 ≤ k → out.getD k 0#8 = dst.getD k 0#8

/-- R82: BV.RESIZE, for every M (D20). -/
def Obligations.ResizeCopiesAndZeroFills : Prop :=
  ∀ s : State, s.fault = 0#3 →
    ∃ q : Bits s.ports.bvM, exec .bvResize s = .next { s with out := .q s.ports.bvM q } ∧
      ∀ i < s.ports.bvM, q.getLsbD i = (decide (i < s.ports.bvW) && s.ports.a.getLsbD i)

/-- R88: widening and cutting back is the identity and adds no set bit; for every narrower width some operand loses all
three. -/
def Obligations.ResizeLaws : Prop :=
  (∀ (w m : Nat) (a : Bits w), w ≤ m →
    resize w (resize m a) = a ∧ popcount (resize m a) = popcount a ∧ parity (resize m a) = parity a) ∧
  ∀ w m : Nat, m < w → ∃ a : Bits w,
    resize w (resize m a) ≠ a ∧ popcount (resize m a) ≠ popcount a ∧ parity (resize m a) ≠ parity a

/-- R83: BV.POPCNT counts the indices `i < W` with `a[i] = 1`. -/
def Obligations.PopcntCountsSetBits : Prop :=
  ∀ s : State, s.fault = 0#3 →
    exec .bvPopcnt s =
      .next { s with out := .n ((List.range s.ports.bvW).filter fun i => s.ports.a.getLsbD i).length }

/-- R84: BV.PARITY is that count modulo 2. -/
def Obligations.ParitySumsModuloTwo : Prop :=
  ∀ s : State, s.fault = 0#3 →
    exec .bvParity s =
      .next { s with out := .b (decide (((List.range s.ports.bvW).filter fun i => s.ports.a.getLsbD i).length % 2 = 1)) }

/-- R85, R161: BV.TEST, within the width and outside it (codes by D10, D11; log entry 4). -/
def Obligations.TestReadsBit : Prop :=
  ∀ s : State, s.fault = 0#3 →
    (s.ports.idx < s.ports.bvW → exec .bvTest s = .next { s with out := .b (s.ports.a.getLsbD s.ports.idx) }) ∧
    (s.ports.bvW ≤ s.ports.idx →
      exec .bvTest s = .next { s with fault := 1#3, faultInfo := some s.ports.idx, out := .nothing })

/-- R86, R161: BV.FLIP, within the width and outside it (codes by D10, D11; log entry 4). -/
def Obligations.FlipInvertsBit : Prop :=
  ∀ s : State, s.fault = 0#3 →
    (s.ports.idx < s.ports.bvW →
      ∃ q : Bits s.ports.bvW, exec .bvFlip s = .next { s with out := .q s.ports.bvW q } ∧
        ∀ i < s.ports.bvW, q.getLsbD i = if i = s.ports.idx then !s.ports.a.getLsbD i else s.ports.a.getLsbD i) ∧
    (s.ports.bvW ≤ s.ports.idx →
      exec .bvFlip s = .next { s with fault := 1#3, faultInfo := some s.ports.idx, out := .nothing })

/-- R84, R86, corner cases: a flip undoes itself, flips commute, and one flip changes the population count by exactly one
and inverts the parity. -/
def Obligations.FlipLaws : Prop :=
  ∀ (w : Nat) (v : Bits w) (i j : Nat), i < w → j < w →
    flipbit (flipbit v i) i = v ∧ flipbit (flipbit v i) j = flipbit (flipbit v j) i ∧
    (popcount (flipbit v i) = popcount v + 1 ∨ popcount (flipbit v i) + 1 = popcount v) ∧
    parity (flipbit v i) = !parity v

/-! ### The parity codec -/

/-- R101, R67: PAR.ENC. Bit 0 is the parity of the data, the data stand above it, the population count is even. -/
def Obligations.ParityEncodeResult : Prop :=
  ∀ s : State, s.fault = 0#3 →
    ∃ q : Bits (s.params.n + 1), exec .parEnc s = .next { s with out := .q (s.params.n + 1) q } ∧
      q.getLsbD 0 = decide (((List.range s.params.n).filter fun i => s.ports.d.getLsbD i).length % 2 = 1) ∧
      (∀ j < s.params.n, q.getLsbD (j + 1) = s.ports.d.getLsbD j) ∧
      ((List.range (s.params.n + 1)).filter fun i => q.getLsbD i).length % 2 = 0 ∧
      q.toNat = 2 * s.ports.d.toNat + (q.getLsbD 0).toNat

/-- R102: PAR.DEC, all six fields, on every word. -/
def Obligations.ParityDecodeResult : Prop :=
  ∀ s : State, s.fault = 0#3 → ∀ odd : Bool,
    odd = decide (((List.range (s.params.n + 1)).filter fun i => s.ports.wPar.getLsbD i).length % 2 = 1) →
    ∃ data : Bits s.params.n, (∀ j < s.params.n, data.getLsbD j = s.ports.wPar.getLsbD (j + 1)) ∧
      exec .parDec s = .next { s with
        out := .codec s.params.n (s.params.n + 1) { decodedBits := data, storedBits := s.ports.wPar, success := !odd, errorDetected := odd, numCorruptBits := if odd then 1 else 0, numCorrectedBits := 0 } }

/-- R103: round trip, detection of every single flip, silent aliasing of every double flip (with wrong data). -/
def Obligations.ParityFlipLaws : Prop :=
  ∀ (s : State) (d : Bits s.params.n), s.fault = 0#3 →
    exec .parDec (s.withWPar (parEncode d)) = .next { s.withWPar (parEncode d) with
      out := .codec s.params.n (s.params.n + 1) ⟨d, parEncode d, true, false, 0, 0⟩ } ∧
    (∀ i < s.params.n + 1, ∃ data, exec .parDec (s.withWPar (flipbit (parEncode d) i)) =
      .next { s.withWPar (flipbit (parEncode d) i) with
        out := .codec s.params.n (s.params.n + 1) ⟨data, flipbit (parEncode d) i, false, true, 1, 0⟩ }) ∧
    ∀ i < s.params.n + 1, ∀ j < s.params.n + 1, i ≠ j →
      ∃ data, data ≠ d ∧ exec .parDec (s.withWPar (flipbit (flipbit (parEncode d) i) j)) =
        .next { s.withWPar (flipbit (flipbit (parEncode d) i) j) with
          out := .codec s.params.n (s.params.n + 1) ⟨data, flipbit (flipbit (parEncode d) i) j, true, false, 0, 0⟩ }

/-- R104: any set of flips, given as a mask: an odd number is detected, an even number is invisible, and the data carry
the flips. -/
def Obligations.ParityAnyFlips : Prop :=
  ∀ (s : State) (d : Bits s.params.n) (m : Bits (parWidth s.params.n)) (odd : Bool), s.fault = 0#3 →
    odd = decide (((List.range (s.params.n + 1)).filter fun i => m.getLsbD i).length % 2 = 1) →
    ∃ data : Bits s.params.n, (∀ j < s.params.n, data.getLsbD j = (d.getLsbD j ^^ m.getLsbD (j + 1))) ∧
      exec .parDec (s.withWPar (parEncode d ^^^ m)) = .next { s.withWPar (parEncode d ^^^ m) with
        out := .codec s.params.n (s.params.n + 1) ⟨data, parEncode d ^^^ m, !odd, odd, odd.toNat, 0⟩ }

/-! ### The Hamming codec -/

/-- R111, R112: R is the smallest `r` with `2^r >= K + r + 1`, also in its closed form, and T = N + 1 + R. -/
def Obligations.CheckCountIsMinimal : Prop :=
  ∀ n : Nat, (n + 1) + checkCount n + 1 ≤ 2 ^ checkCount n ∧
    (∀ r, (n + 1) + r + 1 ≤ 2 ^ r → checkCount n ≤ r) ∧
    (∀ r, 1 ≤ r → (2 ^ (r - 1) < n + r + 1 ∧ n + r + 2 ≤ 2 ^ r ↔ r = checkCount n)) ∧
    hamWidth n = n + 1 + checkCount n

/-- R61, R62, R65: the layout. `2^(R-1) < T < 2^R`, T is no power of two; the check positions are exactly
`2^0 .. 2^(R-1)`; the data positions increase, are exactly the other positions, K of them, and the last is T. -/
def Obligations.BlockLayout : Prop :=
  ∀ n : Nat, 2 ^ (checkCount n - 1) < hamWidth n ∧ hamWidth n < 2 ^ checkCount n ∧ (∀ k, hamWidth n ≠ 2 ^ k) ∧
    (∀ k, 2 ^ k ≤ hamWidth n ↔ k < checkCount n) ∧
    (∀ i j, i < j → dataPos i < dataPos j) ∧
    (∀ j < n + 1, 1 ≤ dataPos j ∧ dataPos j ≤ hamWidth n ∧ ∀ k, dataPos j ≠ 2 ^ k) ∧
    (∀ p, 1 ≤ p → p ≤ hamWidth n → (∀ k, p ≠ 2 ^ k) → ∃ j < n + 1, dataPos j = p) ∧
    dataPos n = hamWidth n ∧
    ∀ j, dataPos j - Nat.log2 (dataPos j) - 2 = j

/-- R64, R65 (d): `COV[i]` holds its own check position and no other check position, and a position is determined by the
sets it is in. -/
def Obligations.CoverageSets : Prop :=
  (∀ i p, covers i p = true ↔ p &&& 2 ^ i ≠ 0) ∧ (∀ i j, covers i (2 ^ j) = true ↔ i = j) ∧
  ∀ n p, p ≤ hamWidth n →
    p = ((List.range (checkCount n)).map fun i => if covers i p then 2 ^ i else 0).sum

/-- R115, R62, R63: HAM.PLACE. A position that is no power of two holds its bit of the extended data block (the position
in closed form), the last one the appended parity; every check position holds 0; the population count is even. -/
def Obligations.PlaceResult : Prop :=
  ∀ s : State, s.fault = 0#3 →
    ∃ q : Bits (hamWidth s.params.n), exec .hamPlace s = .next { s with out := .q (hamWidth s.params.n) q } ∧
      (∀ p, 1 ≤ p → p < hamWidth s.params.n → (∀ k, p ≠ 2 ^ k) →
        q.getLsbD (p - 1) = s.ports.d.getLsbD (p - Nat.log2 p - 2)) ∧
      q.getLsbD (hamWidth s.params.n - 1) =
        decide (((List.range s.params.n).filter fun i => s.ports.d.getLsbD i).length % 2 = 1) ∧
      (∀ k, q.getLsbD (2 ^ k - 1) = false) ∧
      ((List.range (hamWidth s.params.n)).filter fun i => q.getLsbD i).length % 2 = 0

/-- R116: HAM.CHECKS. Check `i` is the parity of the set bits at the positions `p` with `p AND 2^i != 0`. -/
def Obligations.ChecksResult : Prop :=
  ∀ s : State, s.fault = 0#3 →
    ∃ c : Bits (checkCount s.params.n), exec .hamChecks s = .next { s with out := .c (checkCount s.params.n) c } ∧
      ∀ i < checkCount s.params.n, c.getLsbD i =
        decide (((List.range (hamWidth s.params.n)).filter fun k =>
          decide ((k + 1) &&& 2 ^ i ≠ 0) && s.ports.wHam.getLsbD k).length % 2 = 1)

/-- R116 (b) to (d): the check unit is linear, a single set bit gives its own position, and any word gives the XOR of the
positions of its set bits. -/
def Obligations.ChecksAreLinear : Prop :=
  ∀ n : Nat, (∀ x y : Bits (hamWidth n), checks n (x ^^^ y) = checks n x ^^^ checks n y) ∧
    checks n 0#_ = 0#_ ∧
    (∀ p, 1 ≤ p → p ≤ hamWidth n → (checks n (BitVec.twoPow _ (p - 1))).toNat = p) ∧
    ∀ w : Bits (hamWidth n), (checks n w).toNat = positionsXor (hamWidth n) w

/-- R117: HAM.ENC. The data and the appended parity at their positions, the check positions as HAM.CHECKS computes them
from HAM.PLACE, and every covered set of the result even. -/
def Obligations.HammingEncodeResult : Prop :=
  ∀ s : State, s.fault = 0#3 →
    ∃ q : Bits (hamWidth s.params.n), exec .hamEnc s = .next { s with out := .q (hamWidth s.params.n) q } ∧
      (∀ p, 1 ≤ p → p ≤ hamWidth s.params.n → (∀ k, p ≠ 2 ^ k) →
        q.getLsbD (p - 1) = (place s.ports.d).getLsbD (p - 1)) ∧
      (∀ i < checkCount s.params.n,
        q.getLsbD (2 ^ i - 1) = (checks s.params.n (place s.ports.d)).getLsbD i) ∧
      checks s.params.n q = 0#_

/-- R117, corner cases: the encoder is linear and injective, and encodes zero as zero. -/
def Obligations.HammingEncodeLinear : Prop :=
  ∀ n : Nat, (∀ x y : Bits n, hamEncode (x ^^^ y) = hamEncode x ^^^ hamEncode y) ∧
    (∀ x y : Bits n, hamEncode x = hamEncode y → x = y) ∧ hamEncode 0#n = 0#_

/-- R118: HAM.EXTRACT takes the first N data positions in ascending order (EXT takes all K), so it undoes HAM.PLACE and
HAM.ENC, and neither a check bit nor the appended parity bit influences it. -/
def Obligations.ExtractResult : Prop :=
  (∀ s : State, s.fault = 0#3 →
    ∃ q : Bits s.params.n, exec .hamExtract s = .next { s with out := .q s.params.n q } ∧
      ∀ j < s.params.n, q.getLsbD j = s.ports.wHam.getLsbD (dataPos j - 1)) ∧
  (∀ (n : Nat) (w : Bits (hamWidth n)), ∀ j < n + 1, (extBlock n w).getLsbD j = w.getLsbD (dataPos j - 1)) ∧
  ∀ (n : Nat) (d : Bits n), extract n (place d) = d ∧ extract n (hamEncode d) = d ∧
    extBlock n (hamEncode d) = BitVec.cons (parity d) d ∧
    ∀ (w : Bits (hamWidth n)) (k : Nat), extract n (flipbit w (2 ^ k - 1)) = extract n w ∧
      extract n (flipbit w (hamWidth n - 1)) = extract n w

/-- R119 to R122: HAM.DEC on path NONE. `num_corrected_bits = 0` there is the spec's decision D9 (log entry 10). -/
def Obligations.DecodeWithoutError : Prop :=
  ∀ s : State, s.fault = 0#3 → positionsXor (hamWidth s.params.n) s.ports.wHam = 0 →
    exec .hamDec s = .next { s with
      out := .codec s.params.n (hamWidth s.params.n) ⟨extract s.params.n s.ports.wHam, s.ports.wHam, true, false, 0, 0⟩ }

/-- R121, R123 to R125: HAM.DEC on path SINGLE: the syndrome `x` names a position, and after the tentative flip the
extended data block has even population. -/
def Obligations.DecodeSingleCorrects : Prop :=
  ∀ (s : State) (x : Nat), s.fault = 0#3 → x = positionsXor (hamWidth s.params.n) s.ports.wHam →
    0 < x → x ≤ hamWidth s.params.n →
    parity (extBlock s.params.n (flipbit s.ports.wHam (x - 1))) = false →
    exec .hamDec s = .next { s with
      out := .codec s.params.n (hamWidth s.params.n) ⟨extract s.params.n (flipbit s.ports.wHam (x - 1)), s.ports.wHam, true, true, 1, 1⟩ }

/-- R121, R126: HAM.DEC on path DOUBLE: after the tentative flip they still disagree; the flip is discarded. -/
def Obligations.DecodeDoubleDetects : Prop :=
  ∀ (s : State) (x : Nat), s.fault = 0#3 → x = positionsXor (hamWidth s.params.n) s.ports.wHam →
    0 < x → x ≤ hamWidth s.params.n →
    parity (extBlock s.params.n (flipbit s.ports.wHam (x - 1))) = true →
    exec .hamDec s = .next { s with
      out := .codec s.params.n (hamWidth s.params.n) ⟨extract s.params.n s.ports.wHam, s.ports.wHam, false, true, 2, 0⟩ }

/-- R127: HAM.DEC on path OUTOFRANGE with the values the spec decides (D8; log entry 3). -/
def Obligations.DecodeOutOfRangeDecided : Prop :=
  ∀ s : State, s.fault = 0#3 → s.params.oor = .decided →
    hamWidth s.params.n < positionsXor (hamWidth s.params.n) s.ports.wHam →
    exec .hamDec s = .next { s with
      out := .codec s.params.n (hamWidth s.params.n) ⟨extract s.params.n s.ports.wHam, s.ports.wHam, false, true, 2, 0⟩ }

/-- R127, U2: HAM.DEC on path OUTOFRANGE under either policy: an error is reported, nothing is corrected, the stored word
is shown. -/
def Obligations.DecodeOutOfRangeDetects : Prop :=
  ∀ s : State, s.fault = 0#3 → hamWidth s.params.n < positionsXor (hamWidth s.params.n) s.ports.wHam →
    ∃ (data : Bits s.params.n) (ok : Bool) (k : Nat), k ≤ 2 ∧
      exec .hamDec s = .next { s with
        out := .codec s.params.n (hamWidth s.params.n) ⟨data, s.ports.wHam, ok, true, k, 0⟩ }

/-- R128: an uncorrupted word decodes to its data, with no error. -/
def Obligations.HammingRoundTrip : Prop :=
  ∀ (s : State) (d : Bits s.params.n), s.fault = 0#3 →
    exec .hamDec (s.withWHam (hamEncode d)) = .next { s.withWHam (hamEncode d) with
      out := .codec s.params.n (hamWidth s.params.n) ⟨d, hamEncode d, true, false, 0, 0⟩ }

/-- R129: every single flip, at a data, a check or the last position, is corrected, for every N and every datum. -/
def Obligations.HammingCorrectsEverySingleError : Prop :=
  ∀ (s : State) (d : Bits s.params.n) (p : Nat), s.fault = 0#3 → 1 ≤ p → p ≤ hamWidth s.params.n →
    exec .hamDec (s.withWHam (flipbit (hamEncode d) (p - 1))) =
      .next { s.withWHam (flipbit (hamEncode d) (p - 1)) with
        out := .codec s.params.n (hamWidth s.params.n) ⟨d, flipbit (hamEncode d) (p - 1), true, true, 1, 1⟩ }

/-- R130: two flips at distinct positions: the syndrome is their XOR and never 0; above T the values R127 decides (log
entry 3); otherwise the number of data positions among `p1`, `p2` and the syndrome decides between a detected double
error and a miscorrection that is never the original data. -/
def Obligations.HammingDoubleErrorOutcomes : Prop :=
  ∀ (s : State) (d : Bits s.params.n) (p1 p2 x T : Nat) (w : Bits (hamWidth s.params.n)), s.fault = 0#3 →
    T = hamWidth s.params.n → 1 ≤ p1 → p1 ≤ T → 1 ≤ p2 → p2 ≤ T → p1 ≠ p2 → x = p1 ^^^ p2 →
    w = flipbit (flipbit (hamEncode d) (p1 - 1)) (p2 - 1) →
    x ≠ 0 ∧
    ((T < x ∧ s.params.oor = .decided) ∨
      (x ≤ T ∧ ((isDataPos T p1).toNat + (isDataPos T p2).toNat + (isDataPos T x).toNat) % 2 = 1) →
      ∃ data : Bits s.params.n,
        (∀ j < s.params.n, data.getLsbD j = (d.getLsbD j ^^ (decide (dataPos j = p1) || decide (dataPos j = p2)))) ∧
        exec .hamDec (s.withWHam w) = .next { s.withWHam w with
          out := .codec s.params.n (hamWidth s.params.n) ⟨data, w, false, true, 2, 0⟩ }) ∧
    (x ≤ T → ((isDataPos T p1).toNat + (isDataPos T p2).toNat + (isDataPos T x).toNat) % 2 = 0 →
      ∃ data : Bits s.params.n, data ≠ d ∧
        (∀ j < s.params.n, data.getLsbD j =
          (d.getLsbD j ^^ (decide (dataPos j = p1) || decide (dataPos j = p2) || decide (dataPos j = x)))) ∧
        exec .hamDec (s.withWHam w) = .next { s.withWHam w with
          out := .codec s.params.n (hamWidth s.params.n) ⟨data, w, true, true, 1, 1⟩ })

/-- R131: any set of flips, given as a mask `m` with the XOR `x` of its positions: which path is taken and what the data
are. Above T the values R127 decides (log entry 3); `num_corrected_bits = 0` at `x = 0` is D9 (log entry 10). -/
def Obligations.HammingAnyErrorOutcome : Prop :=
  ∀ (s : State) (d : Bits s.params.n) (m w : Bits (hamWidth s.params.n)) (x T k : Nat), s.fault = 0#3 →
    T = hamWidth s.params.n → x = positionsXor (hamWidth s.params.n) m → w = hamEncode d ^^^ m →
    k = ((List.range T).filter fun i => isDataPos T (i + 1) && (m.getLsbD i ^^ decide (i + 1 = x))).length →
    ∃ data fixed : Bits s.params.n,
      (∀ j < s.params.n, data.getLsbD j = (d.getLsbD j ^^ m.getLsbD (dataPos j - 1))) ∧
      (∀ j < s.params.n, fixed.getLsbD j = (data.getLsbD j ^^ decide (dataPos j = x))) ∧
      (x = 0 → exec .hamDec (s.withWHam w) = .next { s.withWHam w with
        out := .codec s.params.n (hamWidth s.params.n) ⟨data, w, true, false, 0, 0⟩ }) ∧
      (0 < x → x ≤ T → k % 2 = 0 → exec .hamDec (s.withWHam w) = .next { s.withWHam w with
        out := .codec s.params.n (hamWidth s.params.n) ⟨fixed, w, true, true, 1, 1⟩ }) ∧
      ((0 < x ∧ x ≤ T ∧ k % 2 = 1) ∨ (T < x ∧ s.params.oor = .decided) →
        exec .hamDec (s.withWHam w) = .next { s.withWHam w with
          out := .codec s.params.n (hamWidth s.params.n) ⟨data, w, false, true, 2, 0⟩ })

/-- R189, C1: 'every double error is detected' (with `success = 0`), which the spec says is false of this code. -/
def Obligations.EveryDoubleErrorReported : Prop :=
  ∀ (s : State) (d : Bits s.params.n) (p1 p2 : Nat), s.fault = 0#3 → 1 ≤ p1 → p1 ≤ hamWidth s.params.n →
    1 ≤ p2 → p2 ≤ hamWidth s.params.n → p1 ≠ p2 →
    ∃ r : CodecResult s.params.n (hamWidth s.params.n), r.success = false ∧
      exec .hamDec (s.withWHam (flipbit (flipbit (hamEncode d) (p1 - 1)) (p2 - 1))) =
        .next { s.withWHam (flipbit (flipbit (hamEncode d) (p1 - 1)) (p2 - 1)) with
          out := .codec s.params.n (hamWidth s.params.n) r }

/-! ### The Chunk -/

/-- R142, R140: CHUNK.STORE replaces ENC and ORIG whole, under either strategy, and gives no result. -/
def Obligations.StoreReplacesBoth : Prop :=
  (∀ n oor enc orig ports pending info out,
    exec .chunkStore (cell n .parity oor enc orig ports pending info out) =
      .next (cell n .parity oor (parEncode ports.d) ports.d ports pending info .nothing)) ∧
  ∀ n oor enc orig ports pending info out,
    exec .chunkStore (cell n .hamming oor enc orig ports pending info out) =
      .next (cell n .hamming oor (hamEncode ports.d) ports.d ports pending info .nothing)

/-- R143, R161: CHUNK.CORRUPT flips one bit of ENC and leaves ORIG; outside the block it faults. T is that of the bound
strategy (C5, D25); codes by D10, D11 (log entry 4). -/
def Obligations.CorruptFlipsOneBit : Prop :=
  ∀ (s : State) (T : Nat), s.fault = 0#3 → T = encWidth s.params.strat s.params.n → s.params.strat ≠ none →
    (s.ports.idx < T → ∃ e : Bits (encWidth s.params.strat s.params.n),
      (∀ i < T, e.getLsbD i = if i = s.ports.idx then !s.enc.getLsbD i else s.enc.getLsbD i) ∧
      exec .chunkCorrupt s = .next { s with enc := e, out := .nothing }) ∧
    (T ≤ s.ports.idx →
      exec .chunkCorrupt s = .next { s with fault := 1#3, faultInfo := some s.ports.idx, out := .nothing })

/-- R144: after a run of CHUNK.CORRUPT operations ENC differs from what it was by the mask of the indices corrupted an odd
number of times: order and repetition do not matter. -/
def Obligations.CorruptionsAddUp : Prop :=
  ∀ (s : State) (rs rest : List (Request s.params)), s.fault = 0#3 → s.params.strat ≠ none →
    s.pending = rs ++ rest →
    (∀ r ∈ rs, r.cmd = 0x32#8 ∧ r.ports.idx < encWidth s.params.strat s.params.n) →
    ∃ (e : Bits (encWidth s.params.strat s.params.n)) (ports : Ports s.params) (out : Result),
      (∀ i < encWidth s.params.strat s.params.n,
        e.getLsbD i = (s.enc.getLsbD i ^^ decide ((rs.filter fun r => decide (r.ports.idx = i)).length % 2 = 1))) ∧
      Host.Core.run Sys2Proof.core rs.length s =
        .next { s with enc := e, ports := ports, pending := rest, out := out }

/-- R145, R140: CHUNK.RETRIEVE is read-only; it reports the bound codec's decode of ENC, with ENC, ORIG and the comparison
of the decoded data against ORIG. -/
def Obligations.RetrieveReportsAgainstGroundTruth : Prop :=
  (∀ n oor enc orig ports pending info out,
    exec .chunkRetrieve (cell n .parity oor enc orig ports pending info out) =
      .next (cell n .parity oor enc orig ports pending info (.chunk n (n + 1)
        { decodedBits := (parDecode n enc).decodedBits, storedBits := enc, success := (parDecode n enc).success,
          errorDetected := (parDecode n enc).errorDetected, numCorruptBits := (parDecode n enc).numCorruptBits,
          numCorrectedBits := (parDecode n enc).numCorrectedBits, originalBits := orig,
          correct := decide ((parDecode n enc).decodedBits = orig) }))) ∧
  ∀ n oor enc orig ports pending info out,
    exec .chunkRetrieve (cell n .hamming oor enc orig ports pending info out) =
      .next (cell n .hamming oor enc orig ports pending info (.chunk n (hamWidth n)
        { decodedBits := (hamDecode oor n enc).decodedBits, storedBits := enc, success := (hamDecode oor n enc).success,
          errorDetected := (hamDecode oor n enc).errorDetected, numCorruptBits := (hamDecode oor n enc).numCorruptBits,
          numCorrectedBits := (hamDecode oor n enc).numCorrectedBits, originalBits := orig,
          correct := decide ((hamDecode oor n enc).decodedBits = orig) }))

/-- R145, R186: a retrieve does not repair the cell: a second one in a row changes nothing at all. -/
def Obligations.RetrieveTwiceIsRetrieve : Prop :=
  ∀ s t : State, exec .chunkRetrieve s = .next t → exec .chunkRetrieve t = .next t

/-- R147: what comes back after a store, and after a store and corruptions, for either strategy and any data. -/
def Obligations.CellEndToEnd : Prop :=
  (∀ n oor enc orig ports (p1 p2 : Ports _) rest info out,
    Host.Core.run Sys2Proof.core 2
      (cell n .hamming oor enc orig ports (⟨0x31#8, p1⟩ :: ⟨0x33#8, p2⟩ :: rest) info out) =
      .next (cell n .hamming oor (hamEncode p1.d) p1.d p2 rest info
        (.chunk n (hamWidth n) ⟨⟨p1.d, hamEncode p1.d, true, false, 0, 0⟩, p1.d, true⟩))) ∧
  (∀ n oor enc orig ports (p1 p2 : Ports _) rest info out,
    Host.Core.run Sys2Proof.core 2
      (cell n .parity oor enc orig ports (⟨0x31#8, p1⟩ :: ⟨0x33#8, p2⟩ :: rest) info out) =
      .next (cell n .parity oor (parEncode p1.d) p1.d p2 rest info
        (.chunk n (n + 1) ⟨⟨p1.d, parEncode p1.d, true, false, 0, 0⟩, p1.d, true⟩))) ∧
  (∀ n oor enc orig ports (p1 p2 p3 : Ports _) rest info out, p2.idx < hamWidth n →
    Host.Core.run Sys2Proof.core 3
      (cell n .hamming oor enc orig ports (⟨0x31#8, p1⟩ :: ⟨0x32#8, p2⟩ :: ⟨0x33#8, p3⟩ :: rest) info out) =
      .next (cell n .hamming oor (flipbit (hamEncode p1.d) p2.idx) p1.d p3 rest info
        (.chunk n (hamWidth n) ⟨⟨p1.d, flipbit (hamEncode p1.d) p2.idx, true, true, 1, 1⟩, p1.d, true⟩))) ∧
  (∀ n oor enc orig ports (p1 p2 p3 : Ports _) rest info out, p2.idx < n + 1 →
    ∃ data ok, Host.Core.run Sys2Proof.core 3
      (cell n .parity oor enc orig ports (⟨0x31#8, p1⟩ :: ⟨0x32#8, p2⟩ :: ⟨0x33#8, p3⟩ :: rest) info out) =
      .next (cell n .parity oor (flipbit (parEncode p1.d) p2.idx) p1.d p3 rest info
        (.chunk n (n + 1) ⟨⟨data, flipbit (parEncode p1.d) p2.idx, false, true, 1, 0⟩, p1.d, ok⟩))) ∧
  ∀ n oor enc orig ports (p1 p2 p3 p4 : Ports _) rest info out,
    p2.idx < n + 1 → p3.idx < n + 1 → p2.idx ≠ p3.idx →
    ∃ data, Host.Core.run Sys2Proof.core 4
      (cell n .parity oor enc orig ports
        (⟨0x31#8, p1⟩ :: ⟨0x32#8, p2⟩ :: ⟨0x32#8, p3⟩ :: ⟨0x33#8, p4⟩ :: rest) info out) =
      .next (cell n .parity oor (flipbit (flipbit (parEncode p1.d) p2.idx) p3.idx) p1.d p4 rest info
        (.chunk n (n + 1)
          ⟨⟨data, flipbit (flipbit (parEncode p1.d) p2.idx) p3.idx, true, false, 0, 0⟩, p1.d, false⟩))

/-- R146: the six rows of the table for N = 7 and the datum 0x70 (ENC 0xF08): `success` and `correct` are independent. -/
def Obligations.SuccessAndCorrectAreIndependent : Prop :=
  ∀ oor ports pending info out,
    exec .chunkRetrieve (cell 7 .hamming oor 0xF08#12 0x70#7 ports pending info out) =
      .next (cell 7 .hamming oor 0xF08#12 0x70#7 ports pending info
        (.chunk 7 12 ⟨⟨0x70#7, 0xF08#12, true, false, 0, 0⟩, 0x70#7, true⟩)) ∧
    exec .chunkRetrieve (cell 7 .hamming oor 0xF48#12 0x70#7 ports pending info out) =
      .next (cell 7 .hamming oor 0xF48#12 0x70#7 ports pending info
        (.chunk 7 12 ⟨⟨0x70#7, 0xF48#12, true, true, 1, 1⟩, 0x70#7, true⟩)) ∧
    exec .chunkRetrieve (cell 7 .hamming oor 0xF2A#12 0x70#7 ports pending info out) =
      .next (cell 7 .hamming oor 0xF2A#12 0x70#7 ports pending info
        (.chunk 7 12 ⟨⟨0x74#7, 0xF2A#12, false, true, 2, 0⟩, 0x70#7, false⟩)) ∧
    exec .chunkRetrieve (cell 7 .hamming oor 0xF0B#12 0x70#7 ports pending info out) =
      .next (cell 7 .hamming oor 0xF0B#12 0x70#7 ports pending info
        (.chunk 7 12 ⟨⟨0x70#7, 0xF0B#12, false, true, 2, 0⟩, 0x70#7, true⟩)) ∧
    exec .chunkRetrieve (cell 7 .hamming oor 0xF04#12 0x70#7 ports pending info out) =
      .next (cell 7 .hamming oor 0xF04#12 0x70#7 ports pending info
        (.chunk 7 12 ⟨⟨0x79#7, 0xF04#12, true, true, 1, 1⟩, 0x70#7, false⟩)) ∧
    exec .chunkRetrieve (cell 7 .hamming oor 0xF44#12 0x70#7 ports pending info out) =
      .next (cell 7 .hamming oor 0xF44#12 0x70#7 ports pending info
        (.chunk 7 12 ⟨⟨0x79#7, 0xF44#12, true, false, 0, 0⟩, 0x70#7, false⟩))
end

