-- ==== Sys2Proof/Laws/State.lean ====
section
/-! SUPPORT. One lemma per field of State per named update. -/

namespace Sys2Proof.Machine

@[simp] theorem deliver_params (r : Result) (s : State) : (deliver r s).params = s.params := rfl
@[simp] theorem deliver_enc (r : Result) (s : State) : (deliver r s).enc = s.enc := rfl
@[simp] theorem deliver_orig (r : Result) (s : State) : (deliver r s).orig = s.orig := rfl
@[simp] theorem deliver_fault (r : Result) (s : State) : (deliver r s).fault = s.fault := rfl
@[simp] theorem deliver_faultInfo (r : Result) (s : State) : (deliver r s).faultInfo = s.faultInfo := rfl
@[simp] theorem deliver_ports (r : Result) (s : State) : (deliver r s).ports = s.ports := rfl
@[simp] theorem deliver_pending (r : Result) (s : State) : (deliver r s).pending = s.pending := rfl
@[simp] theorem deliver_out (r : Result) (s : State) : (deliver r s).out = r := rfl

@[simp] theorem ignore_params (s : State) : (ignore s).params = s.params := rfl
@[simp] theorem ignore_enc (s : State) : (ignore s).enc = s.enc := rfl
@[simp] theorem ignore_orig (s : State) : (ignore s).orig = s.orig := rfl
@[simp] theorem ignore_fault (s : State) : (ignore s).fault = s.fault := rfl
@[simp] theorem ignore_faultInfo (s : State) : (ignore s).faultInfo = s.faultInfo := rfl
@[simp] theorem ignore_ports (s : State) : (ignore s).ports = s.ports := rfl
@[simp] theorem ignore_pending (s : State) : (ignore s).pending = s.pending := rfl
@[simp] theorem ignore_out (s : State) : (ignore s).out = .nothing := rfl

@[simp] theorem raise_params (v : Violation) (s : State) : (raise v s).params = s.params := rfl
@[simp] theorem raise_enc (v : Violation) (s : State) : (raise v s).enc = s.enc := rfl
@[simp] theorem raise_orig (v : Violation) (s : State) : (raise v s).orig = s.orig := rfl
@[simp] theorem raise_fault (v : Violation) (s : State) : (raise v s).fault = if s.fault = 0#3 then v.1.code else s.fault := rfl
@[simp] theorem raise_faultInfo (v : Violation) (s : State) : (raise v s).faultInfo = if s.fault = 0#3 then v.2 else s.faultInfo := rfl
@[simp] theorem raise_ports (v : Violation) (s : State) : (raise v s).ports = s.ports := rfl
@[simp] theorem raise_pending (v : Violation) (s : State) : (raise v s).pending = s.pending := rfl
@[simp] theorem raise_out (v : Violation) (s : State) : (raise v s).out = .nothing := rfl

@[simp] theorem loadCell_params (s : State) (e : Bits (encWidth s.params.strat s.params.n)) (o : Bits s.params.n) :
    (loadCell s e o).params = s.params := rfl
@[simp] theorem loadCell_enc (s : State) (e : Bits (encWidth s.params.strat s.params.n)) (o : Bits s.params.n) :
    (loadCell s e o).enc = e := rfl
@[simp] theorem loadCell_orig (s : State) (e : Bits (encWidth s.params.strat s.params.n)) (o : Bits s.params.n) :
    (loadCell s e o).orig = o := rfl
@[simp] theorem loadCell_fault (s : State) (e : Bits (encWidth s.params.strat s.params.n)) (o : Bits s.params.n) :
    (loadCell s e o).fault = s.fault := rfl
@[simp] theorem loadCell_faultInfo (s : State) (e : Bits (encWidth s.params.strat s.params.n)) (o : Bits s.params.n) :
    (loadCell s e o).faultInfo = s.faultInfo := rfl
@[simp] theorem loadCell_ports (s : State) (e : Bits (encWidth s.params.strat s.params.n)) (o : Bits s.params.n) :
    (loadCell s e o).ports = s.ports := rfl
@[simp] theorem loadCell_pending (s : State) (e : Bits (encWidth s.params.strat s.params.n)) (o : Bits s.params.n) :
    (loadCell s e o).pending = s.pending := rfl
@[simp] theorem loadCell_out (s : State) (e : Bits (encWidth s.params.strat s.params.n)) (o : Bits s.params.n) :
    (loadCell s e o).out = .nothing := rfl

@[simp] theorem loadEnc_params (s : State) (e : Bits (encWidth s.params.strat s.params.n)) :
    (loadEnc s e).params = s.params := rfl
@[simp] theorem loadEnc_enc (s : State) (e : Bits (encWidth s.params.strat s.params.n)) :
    (loadEnc s e).enc = e := rfl
@[simp] theorem loadEnc_orig (s : State) (e : Bits (encWidth s.params.strat s.params.n)) :
    (loadEnc s e).orig = s.orig := rfl
@[simp] theorem loadEnc_fault (s : State) (e : Bits (encWidth s.params.strat s.params.n)) :
    (loadEnc s e).fault = s.fault := rfl
@[simp] theorem loadEnc_faultInfo (s : State) (e : Bits (encWidth s.params.strat s.params.n)) :
    (loadEnc s e).faultInfo = s.faultInfo := rfl
@[simp] theorem loadEnc_ports (s : State) (e : Bits (encWidth s.params.strat s.params.n)) :
    (loadEnc s e).ports = s.ports := rfl
@[simp] theorem loadEnc_pending (s : State) (e : Bits (encWidth s.params.strat s.params.n)) :
    (loadEnc s e).pending = s.pending := rfl
@[simp] theorem loadEnc_out (s : State) (e : Bits (encWidth s.params.strat s.params.n)) :
    (loadEnc s e).out = .nothing := rfl

@[simp] theorem clearFault_params (s : State) : (clearFault s).params = s.params := rfl
@[simp] theorem clearFault_enc (s : State) : (clearFault s).enc = s.enc := rfl
@[simp] theorem clearFault_orig (s : State) : (clearFault s).orig = s.orig := rfl
@[simp] theorem clearFault_fault (s : State) : (clearFault s).fault = 0#3 := rfl
@[simp] theorem clearFault_faultInfo (s : State) : (clearFault s).faultInfo = none := rfl
@[simp] theorem clearFault_ports (s : State) : (clearFault s).ports = s.ports := rfl
@[simp] theorem clearFault_pending (s : State) : (clearFault s).pending = s.pending := rfl
@[simp] theorem clearFault_out (s : State) : (clearFault s).out = s.out := rfl

@[simp] theorem present_params (s : State) (p : Ports s.params) (rest : List (Request s.params)) :
    (present s p rest).params = s.params := rfl
@[simp] theorem present_enc (s : State) (p : Ports s.params) (rest : List (Request s.params)) :
    (present s p rest).enc = s.enc := rfl
@[simp] theorem present_orig (s : State) (p : Ports s.params) (rest : List (Request s.params)) :
    (present s p rest).orig = s.orig := rfl
@[simp] theorem present_fault (s : State) (p : Ports s.params) (rest : List (Request s.params)) :
    (present s p rest).fault = s.fault := rfl
@[simp] theorem present_faultInfo (s : State) (p : Ports s.params) (rest : List (Request s.params)) :
    (present s p rest).faultInfo = s.faultInfo := rfl
@[simp] theorem present_ports (s : State) (p : Ports s.params) (rest : List (Request s.params)) :
    (present s p rest).ports = p := rfl
@[simp] theorem present_pending (s : State) (p : Ports s.params) (rest : List (Request s.params)) :
    (present s p rest).pending = rest := rfl
@[simp] theorem present_out (s : State) (p : Ports s.params) (rest : List (Request s.params)) :
    (present s p rest).out = s.out := rfl

end Sys2Proof.Machine
end

