-- ==== Sys2Proof/Laws/Ops.lean ====
section
/-! SUPPORT. One lemma per shared operation that says once everything it can do. -/

namespace Sys2Proof.Machine

theorem Fault.code_ne_zero (f : Fault) : f.code ≠ 0#3 := by cases f <;> decide

theorem raise_of_live {s : State} (h : s.fault = 0#3) (v : Violation) :
    raise v s = { s with fault := v.1.code, faultInfo := v.2, out := .nothing } := by
  simp [raise, h]

theorem raise_of_faulted {s : State} (h : s.fault ≠ 0#3) (v : Violation) : raise v s = { s with out := .nothing } := by
  simp [raise, h]

/-- Everything `operate` can do: be ignored, raise the first violation, or finish. -/
theorem operate_cases {s t done : State} {checks : List (Option Violation)} (h : operate s checks done = .next t) :
    (s.fault ≠ 0#3 ∧ t = { s with out := .nothing }) ∨
    (∃ v, s.fault = 0#3 ∧ firstViolation checks = some v ∧
      t = { s with fault := v.1.code, faultInfo := v.2, out := .nothing }) ∨
    (s.fault = 0#3 ∧ firstViolation checks = none ∧ t = done) := by
  simp only [operate, Host.Outcome.next.injEq] at h
  split at h
  · next hf =>
    split at h
    · next v hv => exact .inr (.inl ⟨v, hf, hv, by rw [← h, raise_of_live hf]⟩)
    · next hv => exact .inr (.inr ⟨hf, hv, h.symm⟩)
  · next hf => exact .inl ⟨hf, h.symm⟩

theorem operate_done {s done : State} {checks : List (Option Violation)} (hf : s.fault = 0#3)
    (hv : firstViolation checks = none) : operate s checks done = .next done := by
  simp [operate, hf, hv]

theorem operate_raise {s done : State} {checks : List (Option Violation)} {v : Violation} (hf : s.fault = 0#3)
    (hv : firstViolation checks = some v) :
    operate s checks done = .next { s with fault := v.1.code, faultInfo := v.2, out := .nothing } := by
  simp [operate, hf, hv, raise_of_live]

theorem operate_faulted {s done : State} {checks : List (Option Violation)} (hf : s.fault ≠ 0#3) :
    operate s checks done = .next { s with out := .nothing } := by
  simp [operate, hf, ignore]

@[simp] theorem firstViolation_nil : firstViolation [] = none := rfl
@[simp] theorem firstViolation_some (v : Violation) (l) : firstViolation (some v :: l) = some v := rfl
@[simp] theorem firstViolation_none (l) : firstViolation (none :: l) = firstViolation l := rfl

theorem checkIndex_ok {idx w : Nat} (h : idx < w) : checkIndex idx w = none := by simp [checkIndex, h]
theorem checkIndex_bad {idx w : Nat} (h : w ≤ idx) : checkIndex idx w = some (.indexOutOfRange, some idx) := by
  simp [checkIndex, h]
theorem checkLength_ok {len w : Nat} (h : len ≤ w) : checkLength len w = none := by simp [checkLength, h]
theorem checkLength_bad {len w : Nat} (h : w < len) : checkLength len w = some (.lengthExceedsWidth, some len) := by
  simp [checkLength, h]
theorem checkBuffer_ok {buf : List Byte} {bits : Nat} (h : ceilBytes bits ≤ buf.length) :
    checkBuffer buf bits = none := by simp [checkBuffer, h]
theorem checkBuffer_bad {buf : List Byte} {bits : Nat} (h : buf.length < ceilBytes bits) :
    checkBuffer buf bits = some (.bufferTooSmall, some buf.length) := by simp [checkBuffer, h]
theorem checkStrategy_bound (st : Strategy) : checkStrategy (some st) = none := rfl
theorem checkStrategy_none : checkStrategy none = some (.nullStrategy, none) := rfl

end Sys2Proof.Machine
end

