-- ==== Sys2Proof/Laws/Exec.lean ====
section
/-! SUPPORT. Every operation but the reset is one `operate`: its checks in order, and the state it finishes in. -/

namespace Sys2Proof.Machine

/-- The checks an operation makes, in the order of its pseudocode (R166). -/
def checksOf (i : Instr) (s : State) : List (Option Violation) :=
  match i with
  | .bvFromBuf => [checkLength s.ports.len s.ports.bvW, checkBuffer s.ports.buf s.ports.len]
  | .bvToBuf => [checkBuffer s.ports.buf s.ports.bvW]
  | .bvResize => []
  | .bvPopcnt => []
  | .bvParity => []
  | .bvTest => [checkIndex s.ports.idx s.ports.bvW]
  | .bvFlip => [checkIndex s.ports.idx s.ports.bvW]
  | .parEnc => []
  | .parDec => []
  | .hamEnc => []
  | .hamDec => []
  | .hamPlace => []
  | .hamChecks => []
  | .hamExtract => []
  | .chunkInit => []
  | .chunkStore => [checkStrategy s.params.strat]
  | .chunkCorrupt => [checkStrategy s.params.strat, checkIndex s.ports.idx (encWidth s.params.strat s.params.n)]
  | .chunkRetrieve => [checkStrategy s.params.strat]

/-- The state an operation finishes in when no check fails. -/
def doneOf (i : Instr) (s : State) : State :=
  match i with
  | .bvFromBuf => deliver (.q s.ports.bvW (fromBuffer s.ports.bvW s.ports.buf s.ports.len)) s
  | .bvToBuf => deliver (.buf (toBuffer s.ports.a s.ports.buf)) s
  | .bvResize => deliver (.q s.ports.bvM (resize s.ports.bvM s.ports.a)) s
  | .bvPopcnt => deliver (.n (popcount s.ports.a)) s
  | .bvParity => deliver (.b (parity s.ports.a)) s
  | .bvTest => deliver (.b (testbit s.ports.a s.ports.idx)) s
  | .bvFlip => deliver (.q s.ports.bvW (flipbit s.ports.a s.ports.idx)) s
  | .parEnc => deliver (.q (parWidth s.params.n) (parEncode s.ports.d)) s
  | .parDec => deliver (.codec s.params.n (parWidth s.params.n) (parDecode s.params.n s.ports.wPar)) s
  | .hamEnc => deliver (.q (hamWidth s.params.n) (hamEncode s.ports.d)) s
  | .hamDec => deliver (.codec s.params.n (hamWidth s.params.n) (hamDecode s.params.oor s.params.n s.ports.wHam)) s
  | .hamPlace => deliver (.q (hamWidth s.params.n) (place s.ports.d)) s
  | .hamChecks => deliver (.c (checkCount s.params.n) (checks s.params.n s.ports.wHam)) s
  | .hamExtract => deliver (.q s.params.n (extract s.params.n s.ports.wHam)) s
  | .chunkInit => s
  | .chunkStore => loadCell s (encodeFor s.params.strat s.ports.d) s.ports.d
  | .chunkCorrupt => loadEnc s (flipbit s.enc s.ports.idx)
  | .chunkRetrieve => deliver (retrieveResult s) s

theorem exec_eq_operate {i : Instr} (hi : i ≠ .chunkInit) (s : State) :
    exec i s = operate s (checksOf i s) (doneOf i s) := by
  cases i
  case chunkInit => exact absurd rfl hi
  all_goals rfl

/-- An operation whose checks all pass, presented to a block with no fault latched. -/
theorem exec_done {i : Instr} (hi : i ≠ .chunkInit) {s : State} (hf : s.fault = 0#3)
    (hv : firstViolation (checksOf i s) = none) : exec i s = .next (doneOf i s) := by
  rw [exec_eq_operate hi, operate_done hf hv]

/-- An operation whose first failing check is `v`. -/
theorem exec_raise {i : Instr} (hi : i ≠ .chunkInit) {s : State} {v : Violation} (hf : s.fault = 0#3)
    (hv : firstViolation (checksOf i s) = some v) :
    exec i s = .next { s with fault := v.1.code, faultInfo := v.2, out := .nothing } := by
  rw [exec_eq_operate hi, operate_raise hf hv]

/-- CHUNK.INIT with no strategy bound. -/
theorem exec_chunkInit_none {s : State} (h : s.params.strat = none) :
    exec .chunkInit s = .next (raise (.nullStrategy, none) s) := by
  simp [exec, execChunkInit, checkStrategy, h]

/-- CHUNK.INIT with a strategy bound. -/
theorem exec_chunkInit_some {s : State} (h : s.params.strat ≠ none) :
    exec .chunkInit s = .next (clearFault (loadCell s (encodeFor s.params.strat 0#_) 0#_)) := by
  simp [exec, execChunkInit, checkStrategy, h]

end Sys2Proof.Machine
end

