-- ==== Sys2Proof/Laws/Vectors.lean ====
section
/-! SUPPORT. What each vector primitive does, bit by bit, and the laws of counting and parity. -/

namespace Sys2Proof.Machine

theorem numberOf_lt (f : Nat → Bool) (w : Nat) : numberOf f w < 2 ^ w := by
  induction w with
  | zero => simp [numberOf]
  | succ w ih =>
    have := Bool.toNat_le (f w)
    have h : (f w).toNat * 2 ^ w ≤ 1 * 2 ^ w := Nat.mul_le_mul_right _ this
    simp only [numberOf, Nat.pow_succ]; omega

theorem testBit_numberOf (f : Nat → Bool) (w i : Nat) :
    (numberOf f w).testBit i = (decide (i < w) && f i) := by
  induction w with
  | zero => simp [numberOf]
  | succ w ih =>
    have hlt := numberOf_lt f w
    have e : numberOf f (w + 1) = 2 ^ w * (f w).toNat + numberOf f w := by
      simp only [numberOf]; rw [Nat.mul_comm]; omega
    rw [e, Nat.testBit_two_pow_mul_add _ hlt]
    split
    · next h => rw [ih]; simp [h, Nat.lt_succ_of_lt h]
    · next h =>
      rcases Nat.lt_or_ge w i with hi | hi
      · have : ¬ i < w + 1 := by omega
        have h2 : Nat.testBit 1 (i - w) = false := by
          obtain ⟨k, hk⟩ := Nat.exists_eq_add_of_lt hi
          rw [show i - w = k + 1 by omega, Nat.testBit_succ]; simp
        cases f w <;> simp [this, h2]
      · have : i = w := by omega
        subst this
        cases f i <;> simp

@[simp] theorem getLsbD_bitsOf (w : Nat) (f : Nat → Bool) (i : Nat) :
    (bitsOf w f).getLsbD i = (decide (i < w) && f i) := by
  simp [bitsOf, BitVec.getLsbD_ofNat, testBit_numberOf]

theorem getLsbD_flipbit {w : Nat} (v : Bits w) (i j : Nat) :
    (flipbit v i).getLsbD j = (v.getLsbD j ^^ (decide (j < w) && decide (i = j))) := by
  rw [flipbit, BitVec.getLsbD_xor, BitVec.getLsbD_twoPow]
  by_cases h : i = j <;> simp [h]

theorem getLsbD_setbit {w : Nat} (v : Bits w) (i : Nat) (b : Bool) (j : Nat) :
    (setbit v i b).getLsbD j = if i = j ∧ j < w then b else v.getLsbD j := by
  by_cases hj : j < w
  · cases b <;> simp only [setbit, BitVec.getLsbD_and, BitVec.getLsbD_not, BitVec.getLsbD_or, BitVec.getLsbD_twoPow,
      if_true, Bool.false_eq_true, if_false] <;> by_cases hi : i = j <;> simp_all
  · cases b <;> simp [setbit, hj, BitVec.getLsbD_of_ge _ j (Nat.le_of_not_lt hj)]

/-- A bit that no assignment touches keeps its value. -/
theorem getLsbD_assignBits_of_ne {w : Nat} (v : Bits w) (place : Nat → Nat) (value : Nat → Bool) (m k : Nat)
    (h : ∀ j < m, place j ≠ k) : (assignBits v place value m).getLsbD k = v.getLsbD k := by
  induction m with
  | zero => rfl
  | succ m ih =>
    have hm : place m ≠ k := h m (by omega)
    rw [assignBits, getLsbD_setbit, ih fun j hj => h j (by omega)]
    simp [hm]

/-- A bit that exactly one assignment touches takes that assignment's value. -/
theorem getLsbD_assignBits_of_eq {w : Nat} (v : Bits w) (place : Nat → Nat) (value : Nat → Bool) (m j : Nat)
    (hj : j < m) (hw : place j < w) (inj : ∀ i < m, i ≠ j → place i ≠ place j) :
    (assignBits v place value m).getLsbD (place j) = value j := by
  induction m with
  | zero => omega
  | succ m ih =>
    rw [assignBits, getLsbD_setbit]
    by_cases h : j = m
    · subst h; simp [hw]
    · have hm : place m ≠ place j := inj m (by omega) (by omega)
      simp only [hm, false_and, if_false]
      exact ih (by omega) fun i hi => inj i (by omega)

theorem countBelow_congr {f g : Nat → Bool} {m : Nat} (h : ∀ k < m, f k = g k) :
    countBelow f m = countBelow g m := by
  induction m with
  | zero => rfl
  | succ m ih => simp only [countBelow, ih fun k hk => h k (by omega), h m (by omega)]

theorem countBelow_eq_length_filter (f : Nat → Bool) (m : Nat) :
    countBelow f m = ((List.range m).filter f).length := by
  induction m with
  | zero => rfl
  | succ m ih => cases h : f m <;> simp [countBelow, List.range_succ, ih, h]

theorem countBelow_le (f : Nat → Bool) (m : Nat) : countBelow f m ≤ m := by
  rw [countBelow_eq_length_filter]
  exact (List.length_filter_le _ _).trans (by simp)

theorem odd_add (a b : Nat) : odd (a + b) = (odd a ^^ odd b) := by
  have ha := Nat.mod_two_eq_zero_or_one a
  have hb := Nat.mod_two_eq_zero_or_one b
  rcases ha with ha | ha <;> rcases hb with hb | hb <;> simp [odd, Nat.add_mod, ha, hb]

@[simp] theorem odd_toNat (b : Bool) : odd b.toNat = b := by cases b <;> rfl

@[simp] theorem odd_zero : odd 0 = false := rfl

/-- Parity is linear (R113: a sum modulo 2 is an XOR). -/
theorem odd_countBelow_xor (f g : Nat → Bool) (m : Nat) :
    odd (countBelow (fun k => f k ^^ g k) m) = (odd (countBelow f m) ^^ odd (countBelow g m)) := by
  induction m with
  | zero => rfl
  | succ m ih => simp only [countBelow, odd_add, ih, odd_toNat]; cases f m <;> cases g m <;> simp

theorem countBelow_false (m : Nat) : countBelow (fun _ => false) m = 0 := by
  induction m with
  | zero => rfl
  | succ m ih => simp [countBelow, ih]

/-- Counting a set of one. -/
theorem countBelow_single (g : Nat → Bool) (a m : Nat) :
    countBelow (fun k => decide (a = k) && g k) m = if a < m then (g a).toNat else 0 := by
  induction m with
  | zero => rfl
  | succ m ih =>
    rw [countBelow, ih]
    rcases Nat.lt_trichotomy a m with h | h | h
    · simp [h, Nat.ne_of_lt h, Nat.lt_succ_of_lt h]
    · simp [h]
    · simp [Nat.ne_of_gt h, Nat.not_lt_of_gt h, Nat.not_lt.mpr (Nat.succ_le_of_lt h)]

theorem parity_xor {w : Nat} (x y : Bits w) : parity (x ^^^ y) = (parity x ^^ parity y) := by
  simp only [parity, popcount, BitVec.getLsbD_xor, odd_countBelow_xor]

@[simp] theorem parity_zero (w : Nat) : parity (0#w) = false := by
  simp [parity, popcount, countBelow_false]

theorem parity_twoPow {w i : Nat} (h : i < w) : parity (BitVec.twoPow w i) = true := by
  have e : countBelow (fun k => (BitVec.twoPow w i).getLsbD k) w = countBelow (fun k => decide (i = k) && true) w :=
    countBelow_congr fun k hk => by rw [BitVec.getLsbD_twoPow]; by_cases hi : i = k <;> simp_all
  rw [parity, popcount, e, countBelow_single]
  simp [h, odd]

theorem parity_flipbit {w i : Nat} (v : Bits w) (h : i < w) : parity (flipbit v i) = !parity v := by
  rw [flipbit, parity_xor, parity_twoPow h]; simp

theorem flipbit_flipbit {w : Nat} (v : Bits w) (i : Nat) : flipbit (flipbit v i) i = v := by
  simp [flipbit]

theorem flipbit_comm {w : Nat} (v : Bits w) (i j : Nat) : flipbit (flipbit v i) j = flipbit (flipbit v j) i := by
  simp only [flipbit, BitVec.xor_assoc, BitVec.xor_comm (BitVec.twoPow w i)]

/-- `ispow2` tests for an exact power of two (R13). -/
theorem isPow2_iff (p : Nat) : isPow2 p = true ↔ ∃ k, p = 2 ^ k := by
  have h := @Nat.and_sub_one_eq_zero_iff_isPowerOfTwo p
  unfold isPow2 Nat.isPowerOfTwo at *
  constructor
  · intro hp
    simp only [Bool.and_eq_true, bne_iff_ne, ne_eq, beq_iff_eq] at hp
    exact (h hp.1).mp hp.2
  · rintro ⟨k, rfl⟩
    have h0 : (2 : Nat) ^ k ≠ 0 := by positivity
    simp only [Bool.and_eq_true, bne_iff_ne, ne_eq, beq_iff_eq]
    exact ⟨h0, (h h0).mpr ⟨k, rfl⟩⟩

theorem getLsbD_memRead (buf : List Byte) (a n i : Nat) :
    (memRead buf a n).getLsbD i = (decide (i < 8 * n) && (buf.getD (a + i / 8) 0#8).getLsbD (i % 8)) := by
  simp [memRead]

@[simp] theorem length_memWrite (buf : List Byte) (a n : Nat) (v : Bits (8 * n)) :
    (memWrite buf a n v).length = buf.length := by
  simp [memWrite]

/-- A byte of the written range is the byte of the vector; every other byte stays (R15). -/
theorem getD_memWrite (buf : List Byte) (a n : Nat) (v : Bits (8 * n)) (k : Nat) (hk : k < buf.length) :
    (memWrite buf a n v).getD k 0#8 =
      if a ≤ k ∧ k < a + n then BitVec.extractLsb' (8 * (k - a)) 8 v else buf.getD k 0#8 := by
  simp [memWrite, List.getD_eq_getElem?_getD, hk]

end Sys2Proof.Machine
end

