-- ==== Sys2Proof/Laws/Widths.lean ====
section
/-! SUPPORT. The search for R ends at the smallest `r` that is large enough (R111), and what that says of T. -/

namespace Sys2Proof.Machine

theorem searchChecks_spec (k fuel r m : Nat) (hr : r ≤ m) (hf : m < r + fuel) (hm : k + m + 1 ≤ 2 ^ m) :
    k + searchChecks k fuel r + 1 ≤ 2 ^ searchChecks k fuel r ∧
    ∀ x, r ≤ x → k + x + 1 ≤ 2 ^ x → searchChecks k fuel r ≤ x := by
  induction fuel generalizing r with
  | zero => omega
  | succ fuel ih =>
    unfold searchChecks
    split
    · next h => exact ⟨h, fun x hx _ => hx⟩
    · next h =>
      have hne : r ≠ m := fun e => h (e ▸ hm)
      obtain ⟨h1, h2⟩ := ih (r + 1) (by omega) (by omega)
      refine ⟨h1, fun x hx hb => h2 x ?_ hb⟩
      have : r ≠ x := fun e => h (e ▸ hb)
      omega

/-- The bound of the search is large enough. -/
theorem searchChecks_enough (k : Nat) : k + k + 1 ≤ 2 ^ k ∨ k ≤ 2 := by
  rcases Nat.lt_or_ge k 3 with h | h
  · right; omega
  · left
    induction k, h using Nat.le_induction with
    | base => decide
    | succ k hk ih => rw [Nat.pow_succ]; omega

theorem checkCount_spec (n : Nat) :
    extWidth n + checkCount n + 1 ≤ 2 ^ checkCount n ∧ ∀ x, extWidth n + x + 1 ≤ 2 ^ x → checkCount n ≤ x := by
  have key : ∃ m, m < extWidth n + 1 + 1 ∧ extWidth n + m + 1 ≤ 2 ^ m := by
    rcases searchChecks_enough (extWidth n) with h | h
    · exact ⟨extWidth n, by omega, h⟩
    · have h3 : extWidth n = 1 ∨ extWidth n = 2 := by unfold extWidth at *; omega
      rcases h3 with h3 | h3 <;> rw [h3]
      · exact ⟨2, by decide, by decide⟩
      · exact ⟨3, by decide, by decide⟩
  obtain ⟨m, hm, hb⟩ := key
  rcases Nat.lt_or_ge m (extWidth n + 1) with h | h
  · obtain ⟨h1, h2⟩ := searchChecks_spec (extWidth n) (extWidth n + 1) 0 m (by omega) (by omega) hb
    exact ⟨h1, fun x hx => h2 x (by omega) hx⟩
  · have : extWidth n = 1 ∨ extWidth n = 2 ∨ 3 ≤ extWidth n := by unfold extWidth at *; omega
    rcases this with e | e | e
    · have : n = 0 := by unfold extWidth at e; omega
      subst this; exact ⟨by decide, fun x hx => by
        rcases Nat.lt_or_ge x 2 with h | h
        · interval_cases x <;> simp [extWidth] at hx
        · exact h⟩
    · have : n = 1 := by unfold extWidth at e; omega
      subst this; exact ⟨by decide, fun x hx => by
        rcases Nat.lt_or_ge x 3 with h | h
        · interval_cases x <;> simp [extWidth] at hx
        · exact h⟩
    · have hk : extWidth n + extWidth n + 1 ≤ 2 ^ extWidth n := by
        rcases searchChecks_enough (extWidth n) with h | h
        · exact h
        · omega
      obtain ⟨h1, h2⟩ := searchChecks_spec (extWidth n) (extWidth n + 1) 0 (extWidth n) (by omega) (by omega) hk
      exact ⟨h1, fun x hx => h2 x (by omega) hx⟩

/-- Every position fits in R bits (R65 (a)). -/
theorem hamWidth_lt (n : Nat) : hamWidth n < 2 ^ checkCount n := by
  have := (checkCount_spec n).1
  unfold hamWidth; omega

theorem checkCount_pos (n : Nat) : 2 ≤ checkCount n := by
  have h := (checkCount_spec n).1
  rcases Nat.lt_or_ge (checkCount n) 2 with h2 | h2
  · exfalso
    interval_cases e : checkCount n <;> simp [extWidth] at h
  · exact h2

/-- R is the smallest: one less is too few (R65 (a)). -/
theorem two_pow_pred_lt_hamWidth (n : Nat) : 2 ^ (checkCount n - 1) < hamWidth n := by
  have hp := checkCount_pos n
  by_contra hc
  have := (checkCount_spec n).2 (checkCount n - 1) (by unfold hamWidth at hc; omega)
  omega

end Sys2Proof.Machine
end

