-- ==== Sys2Proof/Laws/Hamming.lean ====
section
/-! SUPPORT. The layout of a Hamming block (the data positions and the coverage sets) and what the check unit does. -/

namespace Sys2Proof.Machine

theorem nextDataPos_spec (p : Nat) (hp : 2 ≤ p) :
    isPow2 (nextDataPos p) = false ∧ p < nextDataPos p ∧
    ∀ x, p < x → x < nextDataPos p → isPow2 x = true := by
  unfold nextDataPos
  split
  · next h =>
    refine ⟨?_, by omega, fun x h1 h2 => (show x = p + 1 by omega) ▸ h⟩
    by_contra hc
    obtain ⟨k, hk⟩ := (isPow2_iff _).mp h
    obtain ⟨l, hl⟩ := (isPow2_iff _).mp (Bool.not_eq_false _ ▸ hc)
    have hk1 : 1 ≤ k := Nat.one_le_iff_ne_zero.mpr fun e => by subst e; simp at hk; omega
    have hl1 : 1 ≤ l := Nat.one_le_iff_ne_zero.mpr fun e => by subst e; simp at hl
    obtain ⟨k', rfl⟩ := Nat.exists_eq_add_of_le' hk1
    obtain ⟨l', rfl⟩ := Nat.exists_eq_add_of_le' hl1
    rw [Nat.pow_succ] at hk hl
    omega
  · next h => exact ⟨by simpa using h, by omega, fun x h1 h2 => by omega⟩

theorem dataPos_not_pow2 (j : Nat) : isPow2 (dataPos j) = false ∧ 3 ≤ dataPos j := by
  induction j with
  | zero => decide
  | succ j ih =>
    obtain ⟨h1, h2, -⟩ := nextDataPos_spec (dataPos j) (by omega)
    exact ⟨h1, by simp only [dataPos]; omega⟩

theorem dataPos_lt_succ (j : Nat) : dataPos j < dataPos (j + 1) :=
  (nextDataPos_spec (dataPos j) (by have := (dataPos_not_pow2 j).2; omega)).2.1

theorem dataPos_strictMono : StrictMono dataPos := strictMono_nat_of_lt_succ dataPos_lt_succ

theorem dataPos_injective : Function.Injective dataPos := dataPos_strictMono.injective

/-- Every position that is no power of two is some `DPOS[j]` (R62). -/
theorem exists_dataPos (p : Nat) (h1 : 1 ≤ p) (hp : isPow2 p = false) : ∃ j, dataPos j = p := by
  have h3 : dataPos 0 ≤ p := by
    by_contra hc
    have : p = 1 ∨ p = 2 := by have : dataPos 0 = 3 := by decide
                               omega
    rcases this with rfl | rfl <;> exact absurd hp (by decide)
  by_contra hne
  push Not at hne
  have : ∀ j, dataPos j < p := by
    intro j
    induction j with
    | zero => exact lt_of_le_of_ne h3 (hne 0)
    | succ j ih =>
      refine lt_of_le_of_ne ?_ (hne (j + 1))
      by_contra hc
      have hs := (nextDataPos_spec (dataPos j) (by have := (dataPos_not_pow2 j).2; omega)).2.2 p ih
        (by simpa [dataPos] using hc)
      rw [hp] at hs; exact absurd hs (by simp)
  have h := this p
  have := dataPos_strictMono.id_le p
  simp at this; omega

/-- The closed form (R62): below `DPOS[j]` lie `j` data positions and the powers of two. -/
theorem dataPos_eq (j : Nat) : dataPos j = j + Nat.log2 (dataPos j) + 2 := by
  induction j with
  | zero => decide
  | succ j ih =>
    obtain ⟨hn, h3⟩ := dataPos_not_pow2 j
    have hx : dataPos j ≠ 0 := by omega
    have lo := Nat.log2_self_le hx
    have hi := @Nat.lt_log2_self (dataPos j)
    have key : ∀ q l, 2 ^ l ≤ q → q < 2 ^ (l + 1) → Nat.log2 q = l := by
      intro q l h1 h2
      have hq : q ≠ 0 := by have := Nat.two_pow_pos l; omega
      exact (Nat.log2_eq_iff hq).mpr ⟨h1, h2⟩
    simp only [dataPos, nextDataPos]
    split
    · next h =>
      obtain ⟨k, hk⟩ := (isPow2_iff _).mp h
      have hkl : k = Nat.log2 (dataPos j) + 1 := by
        have a1 : 2 ^ Nat.log2 (dataPos j) < 2 ^ k := by omega
        have a2 : 2 ^ k ≤ 2 ^ (Nat.log2 (dataPos j) + 1) := by omega
        have b1 := (Nat.pow_lt_pow_iff_right (a := 2) (by decide)).mp a1
        have b2 := (Nat.pow_le_pow_iff_right (a := 2) (by decide)).mp a2
        omega
      have hp : 2 ^ (Nat.log2 (dataPos j) + 1 + 1) = 2 * 2 ^ (Nat.log2 (dataPos j) + 1) := by rw [Nat.pow_succ]; omega
      have := key (dataPos j + 2) (Nat.log2 (dataPos j) + 1) (by rw [← hkl, ← hk]; omega) (by rw [hp, ← hkl, ← hk]; omega)
      omega
    · next h =>
      have hne : dataPos j + 1 ≠ 2 ^ (Nat.log2 (dataPos j) + 1) := fun e => h ((isPow2_iff _).mpr ⟨_, e⟩)
      have := key (dataPos j + 1) (Nat.log2 (dataPos j)) (by omega) (by omega)
      omega

theorem log2_hamWidth (n : Nat) : Nat.log2 (hamWidth n) = checkCount n - 1 := by
  have h1 := two_pow_pred_lt_hamWidth n
  have h2 := hamWidth_lt n
  have h3 := checkCount_pos n
  have hz : hamWidth n ≠ 0 := Nat.ne_of_gt (Nat.zero_lt_of_lt h1)
  refine (Nat.log2_eq_iff hz).mpr ⟨h1.le, ?_⟩
  rwa [show checkCount n - 1 + 1 = checkCount n by omega]

/-- T is no power of two (R65 (c)). -/
theorem hamWidth_not_pow2 (n : Nat) : isPow2 (hamWidth n) = false := by
  by_contra hc
  obtain ⟨k, hk⟩ := (isPow2_iff _).mp (Bool.not_eq_false _ ▸ hc)
  have h1 := two_pow_pred_lt_hamWidth n
  have h2 := hamWidth_lt n
  rw [hk] at h1 h2
  have b1 := (Nat.pow_lt_pow_iff_right (a := 2) (by decide)).mp h1
  have b2 := (Nat.pow_lt_pow_iff_right (a := 2) (by decide)).mp h2
  omega

/-- The appended parity bit is the last bit of the block (R65 (c)). -/
theorem dataPos_last (n : Nat) : dataPos n = hamWidth n := by
  obtain ⟨j, hj⟩ := exists_dataPos (hamWidth n) (Nat.one_le_iff_ne_zero.mpr (Nat.ne_of_gt (Nat.zero_lt_of_lt (two_pow_pred_lt_hamWidth n)))) (hamWidth_not_pow2 n)
  have e := dataPos_eq j
  rw [hj, log2_hamWidth] at e
  have := checkCount_pos n
  have : j = n := by unfold hamWidth extWidth at e; omega
  rw [← this, hj]
  rw [this]

theorem dataPos_le (n j : Nat) (h : j < extWidth n) : dataPos j ≤ hamWidth n := by
  rw [← dataPos_last n]
  exact dataPos_strictMono.monotone (by unfold extWidth at h; omega)

/-- `COV[i]` is the positions with bit `i` set (R64). -/
theorem covers_eq_testBit (i p : Nat) : covers i p = p.testBit i := by
  rw [covers, Nat.and_two_pow]
  cases p.testBit i <;> simp

theorem getLsbD_checks (n : Nat) (w : Bits (hamWidth n)) (i : Nat) :
    (checks n w).getLsbD i =
      (decide (i < checkCount n) && odd (countBelow (fun k => (k + 1).testBit i && w.getLsbD k) (hamWidth n))) := by
  simp only [checks, getLsbD_bitsOf, covers_eq_testBit]

/-- The check unit is linear (R116 (b)). -/
theorem checks_xor (n : Nat) (x y : Bits (hamWidth n)) : checks n (x ^^^ y) = checks n x ^^^ checks n y := by
  apply BitVec.eq_of_getLsbD_eq
  intro i hi
  simp only [BitVec.getLsbD_xor, getLsbD_checks, hi, decide_true, Bool.true_and, Bool.and_xor_distrib_left,
    odd_countBelow_xor]

/-- One set bit, at position `k + 1`: the checks read as a number are that position (R116 (c)). -/
theorem checks_twoPow (n k : Nat) (hk : k < hamWidth n) :
    checks n (BitVec.twoPow (hamWidth n) k) = BitVec.ofNat (checkCount n) (k + 1) := by
  apply BitVec.eq_of_getLsbD_eq
  intro i hi
  have e : countBelow (fun j => (j + 1).testBit i && (BitVec.twoPow (hamWidth n) k).getLsbD j) (hamWidth n) =
      countBelow (fun j => decide (k = j) && (j + 1).testBit i) (hamWidth n) :=
    countBelow_congr fun j hj => by rw [BitVec.getLsbD_twoPow]; by_cases h : k = j <;> simp_all
  rw [getLsbD_checks, e, countBelow_single, BitVec.getLsbD_ofNat]
  simp only [hi, hk, if_true, odd_toNat]

/-- A flip at position `k + 1` moves the syndrome by that position (R129, R130). -/
theorem syndrome_flipbit (n k : Nat) (w : Bits (hamWidth n)) (hk : k < hamWidth n) :
    syndrome n (flipbit w k) = syndrome n w ^^^ (k + 1) := by
  have h := hamWidth_lt n
  rw [syndrome, flipbit, checks_xor, checks_twoPow n k hk, BitVec.toNat_xor, BitVec.toNat_ofNat,
    Nat.mod_eq_of_lt (by omega)]
  rfl

theorem getLsbD_extBlock (n : Nat) (w : Bits (hamWidth n)) (j : Nat) :
    (extBlock n w).getLsbD j = (decide (j < extWidth n) && w.getLsbD (dataPos j - 1)) := by
  simp [extBlock]

theorem getLsbD_extract (n : Nat) (w : Bits (hamWidth n)) (j : Nat) :
    (extract n w).getLsbD j = (decide (j < n) && w.getLsbD (dataPos j - 1)) := by
  have e : (extract n w).getLsbD j = (decide (j < n) && (extBlock n w).getLsbD j) := BitVec.getLsbD_setWidth n _ j
  rw [e, getLsbD_extBlock, extWidth]
  by_cases h : j < n
  · simp [h, Nat.lt_succ_of_lt h]
  · simp [h]

/-- `HAM.PLACE` puts `e[j]` at `DPOS[j]` (R115). -/
theorem getLsbD_place_dataPos {n : Nat} (d : Bits n) (j : Nat) (hj : j < extWidth n) :
    (place d).getLsbD (dataPos j - 1) = (extend d).getLsbD j := by
  have h3 := fun i => (dataPos_not_pow2 i).2
  refine getLsbD_assignBits_of_eq 0 (fun j => dataPos j - 1) _ _ j hj ?_ fun i _ hij he => hij (dataPos_injective ?_)
  · have a := dataPos_le n j hj
    have b := h3 j
    show dataPos j - 1 < hamWidth n
    omega
  · have a := h3 i
    have b := h3 j
    have c : dataPos i - 1 = dataPos j - 1 := he
    omega

/-- `HAM.PLACE` leaves every check position 0 (R115). -/
theorem getLsbD_place_pow2 {n : Nat} (d : Bits n) (k : Nat) (hk : isPow2 (k + 1) = true) :
    (place d).getLsbD k = false := by
  rw [place, getLsbD_assignBits_of_ne]
  · simp
  · intro j _ he
    obtain ⟨h1, h2⟩ := dataPos_not_pow2 j
    rw [show dataPos j = k + 1 by omega, hk] at h1
    exact absurd h1 (by simp)

end Sys2Proof.Machine
end

