-- ==== Sys2Proof/Laws/PerInstr.lean ====
section
/-! SUPPORT. Per operation: the word it encodes to decodes to it (R68, R71). -/

namespace Sys2Proof.Laws.RoundTrip

/-- An operation is well formed and its word decodes to it. -/
def Statement (i : Instr) : Prop := i.wf = true ∧ decode (encode i) = some i

theorem bvFromBuf : Statement .bvFromBuf := ⟨rfl, rfl⟩
theorem bvToBuf : Statement .bvToBuf := ⟨rfl, rfl⟩
theorem bvResize : Statement .bvResize := ⟨rfl, rfl⟩
theorem bvPopcnt : Statement .bvPopcnt := ⟨rfl, rfl⟩
theorem bvParity : Statement .bvParity := ⟨rfl, rfl⟩
theorem bvTest : Statement .bvTest := ⟨rfl, rfl⟩
theorem bvFlip : Statement .bvFlip := ⟨rfl, rfl⟩
theorem parEnc : Statement .parEnc := ⟨rfl, rfl⟩
theorem parDec : Statement .parDec := ⟨rfl, rfl⟩
theorem hamEnc : Statement .hamEnc := ⟨rfl, rfl⟩
theorem hamDec : Statement .hamDec := ⟨rfl, rfl⟩
theorem hamPlace : Statement .hamPlace := ⟨rfl, rfl⟩
theorem hamChecks : Statement .hamChecks := ⟨rfl, rfl⟩
theorem hamExtract : Statement .hamExtract := ⟨rfl, rfl⟩
theorem chunkInit : Statement .chunkInit := ⟨rfl, rfl⟩
theorem chunkStore : Statement .chunkStore := ⟨rfl, rfl⟩
theorem chunkCorrupt : Statement .chunkCorrupt := ⟨rfl, rfl⟩
theorem chunkRetrieve : Statement .chunkRetrieve := ⟨rfl, rfl⟩

end Sys2Proof.Laws.RoundTrip
end

