-- ==== Sys2Proof/Tests/Slice0.lean ====
section
/-! SUPPORT. The model's own tests. Expected values are those of spec/95_test_vectors.md and of the examples in the rules,
not the model's own answers. The last part shows, for every statement with hypotheses, a concrete state that meets them. -/

open Sys2Proof Sys2Proof.Machine

namespace Sys2Proof.Tests

/-! ### Well-formedness: an ill-formed block for each check -/

theorem test_wf_accepts : Params.wf ⟨7, some .hamming, .decided⟩ = true := by decide

theorem test_wf_refuses_zero_width : Params.wf ⟨0, some .hamming, .decided⟩ = false := by decide

theorem test_wf_refuses_null_strategy : Params.wf ⟨7, none, .decided⟩ = false := by decide

/-! ### Decoding: words written out from the opcode map of R71 -/

theorem test_decode_bv : [decode 0x00#8, decode 0x01#8, decode 0x02#8, decode 0x03#8, decode 0x04#8, decode 0x05#8, decode 0x06#8] =
    [some .bvFromBuf, some .bvToBuf, some .bvResize, some .bvPopcnt, some .bvParity, some .bvTest, some .bvFlip] := by decide

theorem test_decode_par : [decode 0x10#8, decode 0x11#8] = [some .parEnc, some .parDec] := by decide

theorem test_decode_ham : [decode 0x20#8, decode 0x21#8, decode 0x22#8, decode 0x23#8, decode 0x24#8] =
    [some .hamEnc, some .hamDec, some .hamPlace, some .hamChecks, some .hamExtract] := by decide

theorem test_decode_chunk : [decode 0x30#8, decode 0x31#8, decode 0x32#8, decode 0x33#8] =
    [some .chunkInit, some .chunkStore, some .chunkCorrupt, some .chunkRetrieve] := by decide

/-- The first and the last reserved code of each unit, and of the reserved units (R72). -/
theorem test_decode_reserved : [0x07#8, 0x0F#8, 0x12#8, 0x1F#8, 0x25#8, 0x2F#8, 0x34#8, 0x3F#8, 0x40#8, 0xFF#8].all
    (fun c => (decode c).isNone) = true := by decide

/-! ### Small states -/

/-- The block of `State.reset` with these BV operands on its ports. -/
def bv (w m : Nat) (a : Bits w) (idx len : Nat) (buf : List Byte) : State :=
  { State.reset with ports := { Ports.idle Config.params with bvW := w, bvM := m, a := a, idx := idx, len := len, buf := buf } }

/-- A freshly reset block of width `n`. -/
def fresh (n : Nat) (st : Strategy) : State := State.resetOf ⟨n, some st, .decided⟩

/-- A block with N = 7 whose Hamming cell holds `enc` and `orig`, with `idx` on its port. -/
def hamCell (enc : Bits 12) (orig : Bits 7) (idx : Nat) : State :=
  cell 7 .hamming .decided enc orig { Ports.idle ⟨7, some .hamming, .decided⟩ with idx := idx } [] none .nothing

/-- A block of width 7 with `d` on its port. -/
def dataOn (st : Strategy) (d : Bits 7) : State :=
  cell 7 st .decided 0#_ 0#7 { Ports.idle ⟨7, some st, .decided⟩ with d := d } [] none .nothing

/-- A block with a fault latched. -/
def faulted : State := { State.reset with fault := 1#3, faultInfo := some 12 }

/-- A block with no strategy bound, before its CHUNK.INIT has faulted. -/
def unbound : State := { State.resetOf ⟨7, none, .decided⟩ with fault := 0#3 }

/-- A block whose host has issued command `c`. -/
def issued (c : Nat) : State := State.reset.withFetchWord 8 c

def outOf (o : Host.Outcome State Fault Refusal) : Option Result :=
  match o with
  | .next t => some t.out
  | .fault _ => none
  | .refused _ => none

/-- The registers after a step: ENC and ORIG as numbers, FAULT, and the recorded `info`. -/
def regsOf (o : Host.Outcome State Fault Refusal) : Option (Nat × Nat × BitVec 3 × Option Nat) :=
  match o with
  | .next t => some (t.enc.toNat, t.orig.toNat, t.fault, t.faultInfo)
  | .fault _ => none
  | .refused _ => none

/-! ### BV family (95_test_vectors.md section 3) -/

theorem test_fromBuf_ignores_high_bit : outOf (exec .bvFromBuf (bv 7 7 0#7 0 7 [0xF0#8])) = some (.q 7 0b1110000#7) := by decide

theorem test_fromBuf_length_before_buffer : regsOf (exec .bvFromBuf (bv 16 0 0#16 0 17 [0x34#8])) = some (0, 0, 2#3, some 17) := by decide

theorem test_toBuf_keeps_later_bytes : outOf (exec .bvToBuf (bv 12 0 0xF08#12 0 0 [0xAA#8, 0xBB#8, 0xCC#8])) =
    some (.buf [0x08#8, 0x0F#8, 0xCC#8]) := by decide

theorem test_toBuf_pads_with_zero : outOf (exec .bvToBuf (bv 7 0 0b1110000#7 0 0 [0xFF#8])) = some (.buf [0x70#8]) := by decide

theorem test_resize_cuts : outOf (exec .bvResize (bv 7 5 0b1110000#7 0 0 [])) = some (.q 5 0b10000#5) := by decide

theorem test_resize_zero_fills : outOf (exec .bvResize (bv 12 16 0xF08#12 0 0 [])) = some (.q 16 0x0F08#16) := by decide

theorem test_popcnt : outOf (exec .bvPopcnt (bv 12 0 0xF08#12 0 0 [])) = some (.n 5) := by decide

theorem test_parity_odd : outOf (exec .bvParity (bv 7 0 0b1110000#7 0 0 [])) = some (.b true) := by decide

theorem test_parity_even : outOf (exec .bvParity (bv 8 0 0xE1#8 0 0 [])) = some (.b false) := by decide

theorem test_test_last_bit : outOf (exec .bvTest (bv 7 0 0b1110000#7 6 0 [])) = some (.b true) := by decide

theorem test_test_out_of_range : regsOf (exec .bvTest (bv 7 0 0b1110000#7 7 0 [])) = some (0, 0, 1#3, some 7) := by decide

theorem test_flip_last_bit : outOf (exec .bvFlip (bv 12 0 0xF08#12 11 0 [])) = some (.q 12 0x708#12) := by decide

theorem test_flip_out_of_range : regsOf (exec .bvFlip (bv 12 0 0xF08#12 12 0 [])) = some (0, 0, 1#3, some 12) := by decide

/-! ### PAR family (95_test_vectors.md section 4) -/

theorem test_parEnc : outOf (exec .parEnc (dataOn .parity 0x70#7)) = some (.q 8 0xE1#8) := by decide

theorem test_parEnc_even : outOf (exec .parEnc (dataOn .parity 0x03#7)) = some (.q 8 0x06#8) := by decide

theorem test_parDec_detects : outOf (exec .parDec (State.reset.withWPar 0xC1#8)) =
    some (.codec 7 8 ⟨0x60#7, 0xC1#8, false, true, 1, 0⟩) := by decide

theorem test_parDec_aliases : outOf (exec .parDec (State.reset.withWPar 0xE7#8)) =
    some (.codec 7 8 ⟨0x73#7, 0xE7#8, true, false, 0, 0⟩) := by decide

/-! ### HAM family (95_test_vectors.md sections 2 and 5) -/

/-- R112's boundary values: N, R, T. -/
theorem test_widths : [1, 3, 4, 7, 10, 11, 25, 26, 64, 120].map (fun n => (n, checkCount n, hamWidth n)) =
    [(1, 3, 5), (3, 3, 7), (4, 4, 9), (7, 4, 12), (10, 4, 15), (11, 5, 17), (25, 5, 31), (26, 6, 33), (64, 7, 72), (120, 8, 129)] := by decide

theorem test_dataPos : (List.range 17).map dataPos = [3, 5, 6, 7, 9, 10, 11, 12, 13, 14, 15, 17, 18, 19, 20, 21, 22] := by decide

theorem test_hamEnc : outOf (exec .hamEnc (dataOn .hamming 0x70#7)) = some (.q 12 0xF08#12) := by decide

/-- All 16 codewords for N = 4 (section 5.3). -/
theorem test_hamEncode_width_4 : (List.range 16).map (fun d => (hamEncode (BitVec.ofNat 4 d)).toNat) =
    [0x000, 0x186, 0x198, 0x01E, 0x1AB, 0x02D, 0x033, 0x1B5, 0x1CA, 0x04C, 0x052, 0x1D4, 0x061, 0x1E7, 0x1F9, 0x07F] := by decide

theorem test_hamPlace : outOf (exec .hamPlace (dataOn .hamming 0x55#7)) = some (.q 12 0x524#12) := by decide

theorem test_hamChecks : outOf (exec .hamChecks (State.reset.withWHam 0xF98#12)) = some (.c 4 0b1101#4) := by decide

theorem test_hamExtract : outOf (exec .hamExtract (State.reset.withWHam 0xF2A#12)) = some (.q 7 0x74#7) := by decide

theorem test_hamDec_single : outOf (exec .hamDec (State.reset.withWHam 0xF48#12)) =
    some (.codec 7 12 ⟨0x70#7, 0xF48#12, true, true, 1, 1⟩) := by decide

theorem test_hamDec_double : outOf (exec .hamDec (State.reset.withWHam 0xF2A#12)) =
    some (.codec 7 12 ⟨0x74#7, 0xF2A#12, false, true, 2, 0⟩) := by decide

/-- Section 5.2: syndrome and path of words near no particular codeword. -/
theorem test_paths : [0x000#12, 0x800#12, 0xFFF#12, 0x7FF#12, 0x555#12, 0xAAA#12, 0xF98#12].map (fun w => (syndrome 7 w, decodePath 7 w)) =
    [(0, .noError), (12, .single), (12, .double), (0, .noError), (2, .double), (14, .outOfRange), (13, .outOfRange)] := by decide

/-! ### CHUNK family (43_chunk.md; 95_test_vectors.md section 8) -/

theorem test_init_clears_fault : regsOf (exec .chunkInit { hamCell 0x708#12 0x70#7 0 with fault := 1#3, faultInfo := some 12 }) =
    some (0, 0, 0#3, none) := by decide

theorem test_init_null_strategy : regsOf (exec .chunkInit unbound) = some (0, 0, 4#3, none) := by decide

theorem test_store_hamming : regsOf (exec .chunkStore (dataOn .hamming 0x70#7)) = some (0xF08, 0x70, 0#3, none) := by decide

theorem test_store_parity : regsOf (exec .chunkStore (dataOn .parity 0x70#7)) = some (0xE1, 0x70, 0#3, none) := by decide

theorem test_corrupt : regsOf (exec .chunkCorrupt (hamCell 0xF08#12 0x70#7 6)) = some (0xF48, 0x70, 0#3, none) := by decide

theorem test_corrupt_out_of_range : regsOf (exec .chunkCorrupt (hamCell 0x708#12 0x70#7 12)) = some (0x708, 0x70, 1#3, some 12) := by decide

/-- P4 step 5: a miscorrected double error. -/
theorem test_retrieve_miscorrected : outOf (exec .chunkRetrieve (hamCell 0xF04#12 0x70#7 0)) =
    some (.chunk 7 12 ⟨⟨0x79#7, 0xF04#12, true, true, 1, 1⟩, 0x70#7, false⟩) := by decide

/-- P5 step 5: the syndrome 13 is beyond the block (D8). -/
theorem test_retrieve_beyond_block : outOf (exec .chunkRetrieve (hamCell 0xF98#12 0x70#7 0)) =
    some (.chunk 7 12 ⟨⟨0x72#7, 0xF98#12, false, true, 2, 0⟩, 0x70#7, false⟩) := by decide

/-! ### The step -/

theorem test_step_reserved : regsOf (step (issued 0x34)) = some (0, 0, 5#3, some 0x34) := by decide

theorem test_step_retrieve_after_reset : outOf (step (issued 0x33)) =
    some (.chunk 7 12 ⟨⟨0#7, 0#12, true, false, 0, 0⟩, 0#7, true⟩) := by decide

/-! ### Witnesses: for every statement with hypotheses, concrete inputs that meet all of them

One theorem per statement, and per clause where a statement has several, at the boundary of the clause's range. -/

/-- The request the host of `State.reset` makes with command `c`. -/
def req (c : Cmd) : Request State.reset.params := { cmd := c, ports := State.reset.ports }

/-- `State.reset` with one operation issued. -/
def oneIssued (c : Cmd) : State := { State.reset with pending := [req c] }

theorem witness_ReservedCodes_unit4 : ∃ s r rest, (s : State).pending = r :: rest ∧ s.fault = 0#3 ∧ 4 ≤ r.cmd.toNat / 16 :=
  ⟨oneIssued 0x40#8, req 0x40#8, [], by decide⟩

theorem witness_ReservedCodes_bv : ∃ s r rest, (s : State).pending = r :: rest ∧ s.fault = 0#3 ∧
    r.cmd.toNat / 16 = 0 ∧ 7 ≤ r.cmd.toNat % 16 :=
  ⟨oneIssued 0x07#8, req 0x07#8, [], by decide⟩

theorem witness_ReservedCodes_par : ∃ s r rest, (s : State).pending = r :: rest ∧ s.fault = 0#3 ∧
    r.cmd.toNat / 16 = 1 ∧ 2 ≤ r.cmd.toNat % 16 :=
  ⟨oneIssued 0x12#8, req 0x12#8, [], by decide⟩

theorem witness_ReservedCodes_ham : ∃ s r rest, (s : State).pending = r :: rest ∧ s.fault = 0#3 ∧
    r.cmd.toNat / 16 = 2 ∧ 5 ≤ r.cmd.toNat % 16 :=
  ⟨oneIssued 0x25#8, req 0x25#8, [], by decide⟩

theorem witness_ReservedCodes_chunk : ∃ s r rest, (s : State).pending = r :: rest ∧ s.fault = 0#3 ∧
    r.cmd.toNat / 16 = 3 ∧ 4 ≤ r.cmd.toNat % 16 :=
  ⟨oneIssued 0x34#8, req 0x34#8, [], by decide⟩

theorem witness_StepRunsDecodedOperation : ∃ s r rest i, (s : State).pending = r :: rest ∧ decode r.cmd = some i :=
  ⟨oneIssued 0x33#8, req 0x33#8, [], .chunkRetrieve, by decide⟩

theorem witness_IdleBlockWaits : ∃ s : State, s.pending = [] := ⟨State.reset, by decide⟩

theorem witness_StepTakesOneOperation : ∃ s r rest, (s : State).pending = r :: rest :=
  ⟨oneIssued 0xFF#8, req 0xFF#8, [], by decide⟩

theorem witness_ResetClearsRegisters : Config.params.strat ≠ none ∧ unbound.params.strat = none := by decide

theorem witness_InitResetsCell : ∃ s : State, s.params.strat ≠ none ∧ s.fault ≠ 0#3 := ⟨faulted, by decide⟩

theorem witness_InitWithoutStrategyRaises : ∃ s : State, s.params.strat = none ∧ s.fault = 0#3 := ⟨unbound, by decide⟩

/-- The clause of the first fault winning: another code is already latched. -/
theorem witness_InitWithoutStrategyRaises_latched : ∃ s : State, s.params.strat = none ∧ s.fault = 5#3 :=
  ⟨{ unbound with fault := 5#3 }, by decide⟩

theorem witness_ChunkWithoutStrategyRaises : ∃ s : State, s.params.strat = none ∧ s.fault = 0#3 := ⟨unbound, by decide⟩

theorem witness_FaultedBlockIgnores : ∃ (s : State) (i : Instr), s.fault ≠ 0#3 ∧ i ≠ .chunkInit :=
  ⟨faulted, .chunkStore, by decide⟩

theorem witness_FaultedBlockIgnores_step : ∃ s r rest, (s : State).pending = r :: rest ∧ s.fault ≠ 0#3 ∧ r.cmd ≠ 0x30#8 :=
  ⟨{ faulted with pending := [req 0x31#8] }, req 0x31#8, [], by decide⟩

/-- A block with W = N = 7 where `idx` and `len` are the first values out of range, with command `c` issued. -/
def edge (c : Cmd) : State :=
  { State.reset with pending := [{ req c with ports := { State.reset.ports with idx := 7, len := 8, buf := [] } }] }

theorem witness_FaultTable_index : ∃ s t r rest, (s : State).pending = r :: rest ∧ s.fault = 0#3 ∧ step s = .next t ∧
    r.cmd = 0x05#8 ∧ r.ports.idx = r.ports.bvW ∧ t.fault = 1#3 :=
  ⟨edge 0x05#8, _, _, _, rfl, by decide, rfl, by decide, by decide, by decide⟩

theorem witness_FaultTable_corrupt : ∃ s t r rest, (s : State).pending = r :: rest ∧ s.fault = 0#3 ∧ step s = .next t ∧
    r.cmd = 0x32#8 ∧ s.params.strat ≠ none ∧ r.ports.idx = encWidth s.params.strat s.params.n ∧ t.fault = 1#3 :=
  ⟨{ State.reset with pending := [{ req 0x32#8 with ports := { State.reset.ports with idx := 12 } }] },
    _, _, _, rfl, by decide, rfl, by decide, by decide, by decide, by decide⟩

theorem witness_FaultTable_length : ∃ s t r rest, (s : State).pending = r :: rest ∧ s.fault = 0#3 ∧ step s = .next t ∧
    r.cmd = 0x00#8 ∧ r.ports.len = r.ports.bvW + 1 ∧ t.fault = 2#3 :=
  ⟨edge 0x00#8, _, _, _, rfl, by decide, rfl, by decide, by decide, by decide⟩

theorem witness_FaultTable_buffer : ∃ s t r rest, (s : State).pending = r :: rest ∧ s.fault = 0#3 ∧ step s = .next t ∧
    r.cmd = 0x01#8 ∧ r.ports.buf.length + 1 = (r.ports.bvW + 7) / 8 ∧ t.fault = 3#3 :=
  ⟨edge 0x01#8, _, _, _, rfl, by decide, rfl, by decide, by decide, by decide⟩

theorem witness_FaultTable_short_read : ∃ s t r rest, (s : State).pending = r :: rest ∧ s.fault = 0#3 ∧ step s = .next t ∧
    r.cmd = 0x00#8 ∧ r.ports.len = r.ports.bvW ∧ r.ports.buf.length + 1 = (r.ports.len + 7) / 8 ∧ t.fault = 3#3 :=
  ⟨{ State.reset with pending := [{ req 0x00#8 with ports := { State.reset.ports with len := 7, buf := [] } }] },
    _, _, _, rfl, by decide, rfl, by decide, by decide, by decide, by decide⟩

theorem witness_FaultTable_strategy : ∃ s t r rest, (s : State).pending = r :: rest ∧ s.fault = 0#3 ∧ step s = .next t ∧
    s.params.strat = none ∧ r.cmd = 0x30#8 ∧ t.fault = 4#3 :=
  ⟨{ unbound with pending := [{ cmd := 0x30#8, ports := unbound.ports }] }, _, _, _, rfl, by decide, rfl, by decide, by decide, by decide⟩

theorem witness_FaultTable_command : ∃ s t r rest, (s : State).pending = r :: rest ∧ s.fault = 0#3 ∧ step s = .next t ∧
    decode r.cmd = none ∧ t.fault = 5#3 :=
  ⟨oneIssued 0x34#8, _, _, _, rfl, by decide, rfl, by decide, by decide⟩

theorem witness_FaultLatchIsSticky_kept : ∃ s t : State, s.fault ≠ 0#3 ∧ step s = .next t ∧ t.fault = s.fault :=
  ⟨{ faulted with pending := [req 0x31#8] }, _, by decide, rfl, by decide⟩

theorem witness_FaultLatchIsSticky_cleared : ∃ s t : State, s.fault ≠ 0#3 ∧ step s = .next t ∧ t.fault = 0#3 :=
  ⟨{ faulted with pending := [req 0x30#8] }, _, by decide, rfl, by decide⟩

theorem witness_StepKeepsInvariant : ∃ s t : State, s.Inv ∧ step s = .next t :=
  ⟨oneIssued 0x33#8, _, by
    refine ⟨⟨by decide, by decide⟩, by decide, by decide, ?_⟩
    exact True.intro, rfl⟩

theorem witness_ReachableStatesMeetInvariant : Reachable Config.params State.reset := Reachable.reset

theorem witness_RegistersWrittenOnlyByCell : ∃ i : Instr, i ≠ .chunkInit ∧ i ≠ .chunkStore ∧ i ≠ .chunkCorrupt :=
  ⟨.chunkRetrieve, by decide⟩

theorem witness_CodecsIgnoreRegisters : ∃ i : Instr, i ≠ .chunkInit ∧ i ≠ .chunkStore ∧ i ≠ .chunkCorrupt ∧ i ≠ .chunkRetrieve :=
  ⟨.hamDec, by decide⟩

theorem witness_FromBufReadsBits : ∃ s : State, s.fault = 0#3 ∧ s.ports.len = s.ports.bvW ∧
    (s.ports.len + 7) / 8 = s.ports.buf.length :=
  ⟨bv 7 7 0#7 0 7 [0xF0#8], by decide⟩

theorem witness_FromBufFaults_length : ∃ s : State, s.fault = 0#3 ∧ s.ports.bvW + 1 = s.ports.len :=
  ⟨bv 7 7 0#7 0 8 [0xF0#8], by decide⟩

theorem witness_FromBufFaults_buffer : ∃ s : State, s.fault = 0#3 ∧ s.ports.len = s.ports.bvW ∧
    s.ports.buf.length < (s.ports.len + 7) / 8 :=
  ⟨bv 9 9 0#9 0 9 [0xF0#8], by decide⟩

theorem witness_ToBufWritesBytes : ∃ s : State, s.fault = 0#3 ∧ (s.ports.bvW + 7) / 8 = s.ports.buf.length :=
  ⟨bv 12 0 0xF08#12 0 0 [0xAA#8, 0xBB#8], by decide⟩

theorem witness_ToBufFaults : ∃ s : State, s.fault = 0#3 ∧ s.ports.buf.length + 1 = (s.ports.bvW + 7) / 8 :=
  ⟨bv 12 0 0xF08#12 0 0 [0xAA#8], by decide⟩

theorem witness_BufferRoundTrip : ∃ (s : State) (dst : List Byte), s.fault = 0#3 ∧ s.ports.len ≤ s.ports.bvW ∧
    (s.ports.len + 7) / 8 ≤ s.ports.buf.length ∧ (s.ports.bvW + 7) / 8 ≤ dst.length :=
  ⟨bv 12 0 0#12 0 9 [0x34#8, 0xFF#8], [0xAA#8, 0xBB#8, 0xCC#8], by decide⟩

/-- Of every statement whose only hypothesis is that no fault is latched: `ResizeCopiesAndZeroFills`,
`PopcntCountsSetBits`, `ParitySumsModuloTwo`, `ParityEncodeResult`, `ParityFlipLaws`, `PlaceResult`, `ChecksResult`,
`HammingEncodeResult`, `ExtractResult`, `HammingRoundTrip`. -/
theorem witness_no_fault_latched : ∃ s : State, s.fault = 0#3 ∧ s.ports.a ≠ 0#_ := ⟨bv 7 5 0b1110000#7 0 0 [], by decide⟩

theorem witness_ResizeLaws : ∃ (w m : Nat), w ≤ m := ⟨7, 8, by decide⟩

/-- The clause of a narrower width: the widest one. -/
theorem witness_ResizeLaws_narrower : ∃ (w m : Nat), m + 1 = w := ⟨7, 6, by decide⟩

theorem witness_TestReadsBit_in : ∃ s : State, s.fault = 0#3 ∧ s.ports.idx + 1 = s.ports.bvW := ⟨bv 7 0 0b1110000#7 6 0 [], by decide⟩

theorem witness_TestReadsBit_out : ∃ s : State, s.fault = 0#3 ∧ s.ports.bvW = s.ports.idx := ⟨bv 7 0 0b1110000#7 7 0 [], by decide⟩

theorem witness_FlipInvertsBit_in : ∃ s : State, s.fault = 0#3 ∧ s.ports.idx + 1 = s.ports.bvW := ⟨bv 12 0 0xF08#12 11 0 [], by decide⟩

theorem witness_FlipInvertsBit_out : ∃ s : State, s.fault = 0#3 ∧ s.ports.bvW = s.ports.idx := ⟨bv 12 0 0xF08#12 12 0 [], by decide⟩

theorem witness_FlipLaws : ∃ w i j : Nat, i < w ∧ j < w ∧ i ≠ j := ⟨7, 0, 6, by decide⟩

theorem witness_ParityDecodeResult : ∃ (s : State) (odd : Bool), s.fault = 0#3 ∧
    odd = decide (((List.range (s.params.n + 1)).filter fun i => s.ports.wPar.getLsbD i).length % 2 = 1) ∧ odd = true :=
  ⟨State.reset.withWPar 0xC1#8, true, by decide⟩

theorem witness_ParityFlipLaws : ∃ (s : State) (i j : Nat), s.fault = 0#3 ∧ i < s.params.n + 1 ∧ j < s.params.n + 1 ∧ i ≠ j :=
  ⟨State.reset, 0, 7, by decide⟩

theorem witness_ParityAnyFlips : ∃ (s : State) (m : Bits (parWidth s.params.n)) (odd : Bool), s.fault = 0#3 ∧
    odd = decide (((List.range (s.params.n + 1)).filter fun i => m.getLsbD i).length % 2 = 1) :=
  ⟨State.reset, 0x06#8, false, by decide⟩

theorem witness_CheckCountIsMinimal : (7 + 1) + checkCount 7 + 1 ≤ 2 ^ checkCount 7 ∧ 1 ≤ checkCount 7 := by decide

/-- Position 12 of the block for N = 7 is a data position, position 8 a check position (R66). -/
theorem witness_BlockLayout : 1 ≤ 12 ∧ 12 ≤ hamWidth 7 ∧ dataPos 7 = 12 ∧ 2 ^ 3 ≤ hamWidth 7 := by decide

theorem witness_BlockLayout_no_power : ∀ k, 12 ≠ 2 ^ k := by
  intro k h
  have : k < 4 := by
    by_contra hk
    have : 2 ^ 4 ≤ 2 ^ k := Nat.pow_le_pow_right (by decide) (by omega)
    omega
  interval_cases k <;> simp at h

theorem witness_CoverageSets : 12 ≤ hamWidth 7 := by decide

/-- The same two facts serve `PlaceResult` and `HammingEncodeResult` at position 11, the last below T. -/
theorem witness_PlaceResult : ∃ s : State, s.fault = 0#3 ∧ 11 < hamWidth s.params.n := ⟨dataOn .hamming 0x55#7, by decide⟩

theorem witness_ChecksAreLinear : 1 ≤ 12 ∧ 12 ≤ hamWidth 7 := by decide

theorem witness_HammingEncodeLinear : hamEncode 0x70#7 = hamEncode 0x70#7 := rfl

theorem witness_DecodeWithoutError : ∃ s : State, s.fault = 0#3 ∧ positionsXor (hamWidth s.params.n) s.ports.wHam = 0 :=
  ⟨State.reset.withWHam 0xF08#12, by decide⟩

/-- Syndrome T, the last that names a position. -/
theorem witness_DecodeSingleCorrects : ∃ (s : State) (x : Nat), s.fault = 0#3 ∧
    x = positionsXor (hamWidth s.params.n) s.ports.wHam ∧ 0 < x ∧ x ≤ hamWidth s.params.n ∧
    parity (extBlock s.params.n (flipbit s.ports.wHam (x - 1))) = false :=
  ⟨State.reset.withWHam 0x708#12, 12, by decide⟩

theorem witness_DecodeDoubleDetects : ∃ (s : State) (x : Nat), s.fault = 0#3 ∧
    x = positionsXor (hamWidth s.params.n) s.ports.wHam ∧ 0 < x ∧ x ≤ hamWidth s.params.n ∧
    parity (extBlock s.params.n (flipbit s.ports.wHam (x - 1))) = true :=
  ⟨State.reset.withWHam 0xF2A#12, 4, by decide⟩

/-- Syndrome 13 = T + 1. -/
theorem witness_DecodeOutOfRangeDecided : ∃ s : State, s.fault = 0#3 ∧ s.params.oor = .decided ∧
    hamWidth s.params.n < positionsXor (hamWidth s.params.n) s.ports.wHam :=
  ⟨State.reset.withWHam 0xF98#12, by decide⟩

theorem witness_DecodeOutOfRangeDetects : ∃ s : State, s.fault = 0#3 ∧ s.params.oor = .agnostic ∧
    hamWidth s.params.n < positionsXor (hamWidth s.params.n) s.ports.wHam :=
  ⟨(State.resetOf ⟨7, some .hamming, .agnostic⟩).withWHam 0xF98#12, by decide⟩

theorem witness_HammingCorrectsEverySingleError : ∃ (s : State) (p : Nat), s.fault = 0#3 ∧ 1 ≤ p ∧ p = hamWidth s.params.n :=
  ⟨State.reset, 12, by decide⟩

/-- Row 1 of R130: positions 5 and 8 give 13. -/
theorem witness_HammingDoubleErrorOutcomes_beyond : ∃ (s : State) (p1 p2 x T : Nat), s.fault = 0#3 ∧
    T = hamWidth s.params.n ∧ 1 ≤ p1 ∧ p1 ≤ T ∧ 1 ≤ p2 ∧ p2 ≤ T ∧ p1 ≠ p2 ∧ x = p1 ^^^ p2 ∧ T < x ∧ s.params.oor = .decided :=
  ⟨State.reset, 5, 8, 13, 12, by decide⟩

/-- Row 2 of R130: positions 2 and 6, the source's own example. -/
theorem witness_HammingDoubleErrorOutcomes_odd : ∃ (s : State) (p1 p2 x T : Nat), s.fault = 0#3 ∧
    T = hamWidth s.params.n ∧ 1 ≤ p1 ∧ p1 ≤ T ∧ 1 ≤ p2 ∧ p2 ≤ T ∧ p1 ≠ p2 ∧ x = p1 ^^^ p2 ∧ x ≤ T ∧
    ((isDataPos T p1).toNat + (isDataPos T p2).toNat + (isDataPos T x).toNat) % 2 = 1 :=
  ⟨State.reset, 2, 6, 4, 12, by decide⟩

/-- Row 3 of R130: positions 3 and 4 give 7. -/
theorem witness_HammingDoubleErrorOutcomes_even : ∃ (s : State) (p1 p2 x T : Nat), s.fault = 0#3 ∧
    T = hamWidth s.params.n ∧ 1 ≤ p1 ∧ p1 ≤ T ∧ 1 ≤ p2 ∧ p2 ≤ T ∧ p1 ≠ p2 ∧ x = p1 ^^^ p2 ∧ x ≤ T ∧
    ((isDataPos T p1).toNat + (isDataPos T p2).toNat + (isDataPos T x).toNat) % 2 = 0 :=
  ⟨State.reset, 3, 4, 7, 12, by decide⟩

/-- The inputs of `HammingAnyErrorOutcome`, for a mask `m` of the block with N = 7, with the datum 0x70. -/
def anyError (m : Bits 12) (x k : Nat) : Bool :=
  decide (x = positionsXor 12 m) && decide (k = ((List.range 12).filter fun i => isDataPos 12 (i + 1) && (m.getLsbD i ^^ decide (i + 1 = x))).length)

/-- R131's example: positions 3, 4 and 7 alias to no error. -/
theorem witness_HammingAnyErrorOutcome_none : anyError 0x04C#12 0 2 = true := by decide

/-- R131's example: positions 1, 2 and 4 are reported as two. -/
theorem witness_HammingAnyErrorOutcome_double : anyError 0x00B#12 7 1 = true := by decide

theorem witness_HammingAnyErrorOutcome_single : anyError 0x800#12 12 0 = true := by decide

theorem witness_HammingAnyErrorOutcome_beyond : anyError 0x090#12 13 1 = true := by decide

theorem witness_EveryDoubleErrorReported : ∃ (s : State) (p1 p2 : Nat), s.fault = 0#3 ∧ 1 ≤ p1 ∧ p1 ≤ hamWidth s.params.n ∧
    1 ≤ p2 ∧ p2 ≤ hamWidth s.params.n ∧ p1 ≠ p2 :=
  ⟨State.reset, 3, 4, by decide⟩

theorem witness_CorruptFlipsOneBit_in : ∃ (s : State) (T : Nat), s.fault = 0#3 ∧ T = encWidth s.params.strat s.params.n ∧
    s.params.strat ≠ none ∧ s.ports.idx + 1 = T :=
  ⟨hamCell 0xF08#12 0x70#7 11, 12, by decide⟩

theorem witness_CorruptFlipsOneBit_out : ∃ (s : State) (T : Nat), s.fault = 0#3 ∧ T = encWidth s.params.strat s.params.n ∧
    s.params.strat ≠ none ∧ T = s.ports.idx :=
  ⟨hamCell 0xF08#12 0x70#7 12, 12, by decide⟩

theorem witness_CorruptionsAddUp : ∃ (s : State) (rs rest : List (Request s.params)), s.fault = 0#3 ∧
    s.params.strat ≠ none ∧ s.pending = rs ++ rest ∧ rs ≠ [] ∧
    ∀ r ∈ rs, r.cmd = 0x32#8 ∧ r.ports.idx < encWidth s.params.strat s.params.n :=
  ⟨{ State.reset with pending := [req 0x32#8, req 0x32#8, req 0x33#8] }, [req 0x32#8, req 0x32#8], [req 0x33#8], by decide⟩

theorem witness_RetrieveTwiceIsRetrieve : ∃ s t : State, exec .chunkRetrieve s = .next t ∧ t.out ≠ .nothing :=
  ⟨hamCell 0xF04#12 0x70#7 0, _, rfl, by decide⟩

/-- The last index of either block, and two distinct indices. -/
theorem witness_CellEndToEnd : 11 < hamWidth 7 ∧ 7 < 7 + 1 ∧ 0 < 7 + 1 ∧ 7 ≠ 0 := by decide

end Sys2Proof.Tests
end

section
/-! PROOFS. The bit-vector units, BV family (40_bitvector.md). -/

namespace Sys2Proof.Machine

/-- `popcount` (R12), counted over a list of indices as R83's own comment counts it. -/
theorem popcount_eq_length_filter {w : Nat} (v : Bits w) :
    popcount v = ((List.range w).filter fun i => v.getLsbD i).length :=
  countBelow_eq_length_filter _ w

/-- Settles O26: BV.POPCNT makes no check, so it finishes by delivering `popcount a`. -/
theorem popcntCountsSetBits : Obligations.PopcntCountsSetBits := by
  intro s hf
  have hdone : exec .bvPopcnt s = .next (doneOf .bvPopcnt s) := exec_done (by decide) hf rfl
  rw [hdone, doneOf, deliver, popcount_eq_length_filter]

end Sys2Proof.Machine
end

section
/-! PROOFS. The parity-bit codec, PAR family (41_parity.md). -/

namespace Sys2Proof.Machine

/-- Counting from the other end: index 0 first, then the indices above it. -/
theorem countBelow_succ_left (f : Nat → Bool) (m : Nat) :
    countBelow f (m + 1) = (f 0).toNat + countBelow (fun k => f (k + 1)) m := by
  induction m with
  | zero => simp [countBelow]
  | succ m ih => rw [countBelow, ih, countBelow, Nat.add_assoc]

theorem popcount_concat {w : Nat} (v : Bits w) (b : Bool) :
    popcount (BitVec.concat v b) = b.toNat + popcount v := by
  simp [popcount, countBelow_succ_left, BitVec.getLsbD_concat]

theorem parity_concat {w : Nat} (v : Bits w) (b : Bool) :
    parity (BitVec.concat v b) = (b ^^ parity v) := by
  rw [parity, popcount_concat, odd_add, odd_toNat, parity]

/-- `parity` (R12), over the list of set indices. -/
theorem parity_eq_decide_length_filter {w : Nat} (v : Bits w) :
    parity v = decide (((List.range w).filter fun i => v.getLsbD i).length % 2 = 1) := by
  rw [parity, odd, popcount_eq_length_filter, beq_eq_decide]

@[simp] theorem getLsbD_parEncode_zero {n : Nat} (d : Bits n) : (parEncode d).getLsbD 0 = parity d :=
  BitVec.getLsbD_concat_zero

@[simp] theorem getLsbD_parEncode_succ {n : Nat} (d : Bits n) (j : Nat) :
    (parEncode d).getLsbD (j + 1) = d.getLsbD j :=
  BitVec.getLsbD_concat_succ

theorem toNat_parEncode {n : Nat} (d : Bits n) : (parEncode d).toNat = 2 * d.toNat + (parity d).toNat := by
  rw [parEncode, BitVec.toNat_concat, Nat.mul_comm]

/-- The post-condition of R101: a codeword has an even population count. -/
@[simp] theorem parity_parEncode {n : Nat} (d : Bits n) : parity (parEncode d) = false := by
  rw [parEncode, parity_concat, Bool.xor_self]

theorem getLsbD_parData {n j : Nat} (w : Bits (parWidth n)) (hj : j < n) :
    (parData n w).getLsbD j = w.getLsbD (j + 1) := by
  simp [parData, hj, Nat.add_comm]

/-- Settles O31: PAR.ENC makes no check and delivers `{d, parity(d)}`. -/
theorem parityEncodeResult : Obligations.ParityEncodeResult := by
  intro s hf
  have hdone : exec .parEnc s = .next (doneOf .parEnc s) := exec_done (by decide) hf rfl
  have heven := parity_eq_decide_length_filter (parEncode s.ports.d)
  refine ⟨parEncode s.ports.d, hdone, ?_, fun j _ => getLsbD_parEncode_succ _ j, ?_, ?_⟩
  · rw [getLsbD_parEncode_zero, parity_eq_decide_length_filter]
  · simpa using heven
  · rw [getLsbD_parEncode_zero, toNat_parEncode]

/-- Settles O32: PAR.DEC makes no check, and every flag it delivers is read off `parity w`. -/
theorem parityDecodeResult : Obligations.ParityDecodeResult := by
  intro s hf odd hodd
  have hdone : exec .parDec s = .next (doneOf .parDec s) := exec_done (by decide) hf rfl
  have hp : parity s.ports.wPar = odd := (parity_eq_decide_length_filter _).trans hodd.symm
  refine ⟨parData s.params.n s.ports.wPar, fun j hj => getLsbD_parData _ hj, ?_⟩
  rw [hdone, doneOf, deliver, parDecode, hp]
  cases odd <;> rfl

end Sys2Proof.Machine
end

section
/-! PROOFS. The Hamming codec, HAM family (42_hamming.md). -/

namespace Sys2Proof.Machine

/-! ### The number of check bits (section 1) -/

/-- Past the smallest sufficient `r` the inequality of R111 stays true: the right side at least doubles. -/
theorem checkBits_suffice_mono {k r m : Nat} (h : k + r + 1 ≤ 2 ^ r) (hm : r ≤ m) : k + m + 1 ≤ 2 ^ m := by
  induction m, hm using Nat.le_induction with
  | base => exact h
  | succ m _ ih => rw [Nat.pow_succ]; omega

/-- Settles O35: minimality is `checkCount_spec`; the closed form says that `r` suffices and `r - 1` does not. -/
theorem checkCountIsMinimal : Obligations.CheckCountIsMinimal := by
  intro n
  obtain ⟨hfits, hmin⟩ := checkCount_spec n
  have hpred := two_pow_pred_lt_hamWidth n
  simp only [hamWidth, extWidth] at hfits hmin hpred
  refine ⟨hfits, hmin, fun r hr => ⟨fun ⟨hlo, hhi⟩ => ?_, ?_⟩, rfl⟩
  · have hle : checkCount n ≤ r := hmin r (by omega)
    by_contra hne
    have := checkBits_suffice_mono hfits (show checkCount n ≤ r - 1 by omega)
    omega
  · rintro rfl
    omega

/-! ### The check unit -/

theorem odd_eq_decide (k : Nat) : odd k = decide (k % 2 = 1) := beq_eq_decide _ _

theorem covers_eq_decide (i p : Nat) : covers i p = decide (p &&& 2 ^ i ≠ 0) := by
  by_cases h : p &&& 2 ^ i = 0 <;> simp [covers, h]

/-- Settles O39: HAM.CHECKS makes no check and delivers `checks`, whose count is a filtered list's length. -/
theorem checksResult : Obligations.ChecksResult := by
  intro s hf
  have hdone : exec .hamChecks s = .next (doneOf .hamChecks s) := exec_done (by decide) hf rfl
  refine ⟨checks s.params.n s.ports.wHam, hdone, fun i hi => ?_⟩
  simp only [checks, getLsbD_bitsOf, hi, decide_true, Bool.true_and, odd_eq_decide, countBelow_eq_length_filter,
    covers_eq_decide]

/-- Bit `i` of an XOR of positions is the parity of the positions that have it set. -/
theorem testBit_foldl_xor_filter (f : Nat → Bool) (m i : Nat) :
    (((List.range m).filter f).foldl (fun x k => x ^^^ (k + 1)) 0).testBit i =
      odd (countBelow (fun k => (k + 1).testBit i && f k) m) := by
  induction m with
  | zero => simp [countBelow]
  | succ m ih =>
    rw [List.range_succ, List.filter_append, List.foldl_append, countBelow, odd_add, odd_toNat, ← ih]
    cases hf : f m <;> simp [hf]

/-- No position of the block reaches bit R (R65 (a)). -/
theorem testBit_position_of_le {n i k : Nat} (hi : checkCount n ≤ i) (hk : k < hamWidth n) :
    (k + 1).testBit i = false := by
  have hlt := hamWidth_lt n
  have hpow : 2 ^ checkCount n ≤ 2 ^ i := Nat.pow_le_pow_right (by decide) hi
  exact Nat.testBit_lt_two_pow (by omega)

/-- The syndrome is the XOR of the positions of the set bits (R116 (d), R119). -/
theorem syndrome_eq_positionsXor (n : Nat) (w : Bits (hamWidth n)) :
    syndrome n w = positionsXor (hamWidth n) w := by
  apply Nat.eq_of_testBit_eq
  intro i
  have hbit : (syndrome n w).testBit i = (checks n w).getLsbD i := rfl
  rw [hbit, getLsbD_checks, positionsXor, testBit_foldl_xor_filter]
  by_cases hi : i < checkCount n
  · simp [hi]
  · have hnone : countBelow (fun k => (k + 1).testBit i && w.getLsbD k) (hamWidth n) = 0 := by
      rw [← countBelow_false (hamWidth n)]
      exact countBelow_congr fun k hk => by rw [testBit_position_of_le (by omega) hk, Bool.false_and]
    simp [hi, hnone]

/-! ### The encoder -/

/-- Check position `2^i` lies in the block (R65 (b)). -/
theorem two_pow_le_hamWidth {n i : Nat} (hi : i < checkCount n) : 2 ^ i ≤ hamWidth n :=
  (Nat.pow_le_pow_right (by decide) (by omega)).trans (two_pow_pred_lt_hamWidth n).le

/-- Writing a bit over a 0 is a flip, or nothing. -/
theorem setbit_of_getLsbD_false {w i : Nat} {v : Bits w} (h : v.getLsbD i = false) (b : Bool) :
    setbit v i b = if b then flipbit v i else v := by
  apply BitVec.eq_of_getLsbD_eq
  intro j hj
  rw [getLsbD_setbit]
  by_cases hij : i = j
  · subst hij
    cases b
    · simpa [hj] using h
    · simp [hj, h, getLsbD_flipbit]
  · cases b <;> simp [hij, getLsbD_flipbit]

/-- Inserting the check bits changes no position that is not a power of two (R117). -/
theorem getLsbD_insertChecks_of_not_pow2 {n p : Nat} (w : Bits (hamWidth n)) (c : Bits (checkCount n)) (h1 : 1 ≤ p)
    (hp : ∀ k, p ≠ 2 ^ k) : (insertChecks n w c).getLsbD (p - 1) = w.getLsbD (p - 1) := by
  refine getLsbD_assignBits_of_ne w _ _ _ _ fun i _ he => hp i ?_
  have := Nat.two_pow_pos i
  omega

/-- Position `2^i` holds check bit `i` (R117). -/
theorem getLsbD_insertChecks_two_pow {n i : Nat} (w : Bits (hamWidth n)) (c : Bits (checkCount n))
    (hi : i < checkCount n) : (insertChecks n w c).getLsbD (2 ^ i - 1) = c.getLsbD i := by
  refine getLsbD_assignBits_of_eq w (fun i => 2 ^ i - 1) _ _ i hi ?_ fun j _ hji he => hji ?_
  · have := two_pow_le_hamWidth hi
    have := Nat.two_pow_pos i
    omega
  · have := Nat.two_pow_pos i
    have := Nat.two_pow_pos j
    exact Nat.pow_right_injective (le_refl 2) (show 2 ^ j = 2 ^ i by omega)

/-- Setting check position `2^k`, which held 0, to `b` changes check `k` by `b` and no other check (R116 (c)). -/
theorem getLsbD_checks_setbit_two_pow {n k : Nat} {w : Bits (hamWidth n)} (hk : k < checkCount n)
    (hw : w.getLsbD (2 ^ k - 1) = false) (b : Bool) {i : Nat} (hi : i < checkCount n) :
    (checks n (setbit w (2 ^ k - 1) b)).getLsbD i = ((checks n w).getLsbD i ^^ (decide (k = i) && b)) := by
  have hpos := Nat.two_pow_pos k
  have hle := two_pow_le_hamWidth hk
  rw [setbit_of_getLsbD_false hw]
  cases b
  · simp
  · rw [if_pos rfl, flipbit, checks_xor, checks_twoPow n _ (by omega), Nat.sub_add_cancel hpos, BitVec.getLsbD_xor,
      BitVec.getLsbD_ofNat, Nat.testBit_two_pow]
    simp [hi]

/-- After the first `m` check bits are inserted over zeros, the first `m` checks have changed, each by its bit. -/
theorem getLsbD_checks_assignBits {n : Nat} {w : Bits (hamWidth n)} (hw : ∀ k, w.getLsbD (2 ^ k - 1) = false)
    (c : Nat → Bool) {m i : Nat} (hm : m ≤ checkCount n) (hi : i < checkCount n) :
    (checks n (assignBits w (fun i => 2 ^ i - 1) c m)).getLsbD i =
      ((checks n w).getLsbD i ^^ (decide (i < m) && c i)) := by
  induction m with
  | zero => simp [assignBits]
  | succ m ih =>
    have hzero : (assignBits w (fun i => 2 ^ i - 1) c m).getLsbD (2 ^ m - 1) = false := by
      rw [getLsbD_assignBits_of_ne, hw]
      intro j hj
      have hlt : 2 ^ j < 2 ^ m := Nat.pow_lt_pow_right (by decide) hj
      have := Nat.two_pow_pos j
      omega
    rw [assignBits, getLsbD_checks_setbit_two_pow (by omega) hzero _ hi, ih (by omega)]
    by_cases hmi : m = i
    · subst hmi; simp
    · have hlt : i < m + 1 ↔ i < m := by omega
      simp [hmi, hlt]

/-- Check bits inserted over zeros are added to the checks (R117). -/
theorem checks_insertChecks {n : Nat} {w : Bits (hamWidth n)} (hw : ∀ k, w.getLsbD (2 ^ k - 1) = false)
    (c : Bits (checkCount n)) : checks n (insertChecks n w c) = checks n w ^^^ c := by
  apply BitVec.eq_of_getLsbD_eq
  intro i hi
  rw [insertChecks, getLsbD_checks_assignBits hw _ le_rfl hi, BitVec.getLsbD_xor, decide_eq_true hi, Bool.true_and]

/-- HAM.PLACE leaves check position `2^k` at 0, also where that lies beyond the block (R115). -/
theorem getLsbD_place_two_pow {n : Nat} (d : Bits n) (k : Nat) : (place d).getLsbD (2 ^ k - 1) = false :=
  getLsbD_place_pow2 d _ ((isPow2_iff _).mpr ⟨k, Nat.sub_add_cancel (Nat.two_pow_pos k)⟩)

/-- Every check of a codeword is satisfied (R117). -/
@[simp] theorem checks_hamEncode {n : Nat} (d : Bits n) : checks n (hamEncode d) = 0#_ := by
  rw [hamEncode, checks_insertChecks (getLsbD_place_two_pow d), BitVec.xor_self]

/-- Settles O41: HAM.ENC makes no check and delivers `hamEncode`, the check bits set over the zeros of HAM.PLACE. -/
theorem hammingEncodeResult : Obligations.HammingEncodeResult := by
  intro s hf
  have hdone : exec .hamEnc s = .next (doneOf .hamEnc s) := exec_done (by decide) hf rfl
  exact ⟨hamEncode s.ports.d, hdone, fun p h1 _ hp => getLsbD_insertChecks_of_not_pow2 _ _ h1 hp,
    fun i hi => getLsbD_insertChecks_two_pow _ _ hi, checks_hamEncode _⟩

/-! ### Extraction -/

theorem dataPos_ne_two_pow (j k : Nat) : dataPos j ≠ 2 ^ k := by
  intro h
  have hpow : isPow2 (dataPos j) = true := (isPow2_iff _).mpr ⟨k, h⟩
  rw [(dataPos_not_pow2 j).1] at hpow
  exact absurd hpow (by decide)

/-- EXT undoes HAM.PLACE (R115, R118). -/
theorem extBlock_place {n : Nat} (d : Bits n) : extBlock n (place d) = extend d := by
  apply BitVec.eq_of_getLsbD_eq
  intro j hj
  rw [getLsbD_extBlock, getLsbD_place_dataPos d j hj]
  simp [hj]

/-- The check bits are not part of the extended data block (R118). -/
theorem extBlock_insertChecks {n : Nat} (w : Bits (hamWidth n)) (c : Bits (checkCount n)) :
    extBlock n (insertChecks n w c) = extBlock n w := by
  apply BitVec.eq_of_getLsbD_eq
  intro j _
  have h3 := (dataPos_not_pow2 j).2
  rw [getLsbD_extBlock, getLsbD_extBlock, getLsbD_insertChecks_of_not_pow2 _ _ (by omega) (dataPos_ne_two_pow j)]

@[simp] theorem extBlock_hamEncode {n : Nat} (d : Bits n) : extBlock n (hamEncode d) = extend d := by
  rw [hamEncode, extBlock_insertChecks, extBlock_place]

@[simp] theorem resize_extend {n : Nat} (d : Bits n) : resize n (extend d) = d :=
  BitVec.setWidth_cons

@[simp] theorem extract_place {n : Nat} (d : Bits n) : extract n (place d) = d := by
  rw [extract, extBlock_place, resize_extend]

@[simp] theorem extract_hamEncode {n : Nat} (d : Bits n) : extract n (hamEncode d) = d := by
  rw [extract, extBlock_hamEncode, resize_extend]

/-- A flip at a position that holds no datum does not reach the data (R118). -/
theorem extract_flipbit_of_ne {n p : Nat} (w : Bits (hamWidth n)) (h1 : 1 ≤ p) (hp : ∀ j < n, dataPos j ≠ p) :
    extract n (flipbit w (p - 1)) = extract n w := by
  apply BitVec.eq_of_getLsbD_eq
  intro j hj
  have h3 := (dataPos_not_pow2 j).2
  have hne : p - 1 ≠ dataPos j - 1 := fun he => hp j hj (by omega)
  rw [getLsbD_extract, getLsbD_extract, getLsbD_flipbit]
  simp [hne]

/-- Settles O43: HAM.EXTRACT makes no check and delivers `extract`; no `DPOS[j]` with `j < N` is a power of two or T. -/
theorem extractResult : Obligations.ExtractResult := by
  refine ⟨fun s hf => ?_, fun n w j hj => ?_, fun n d => ⟨extract_place d, extract_hamEncode d, extBlock_hamEncode d,
    fun w k => ⟨?_, ?_⟩⟩⟩
  · have hdone : exec .hamExtract s = .next (doneOf .hamExtract s) := exec_done (by decide) hf rfl
    exact ⟨extract s.params.n s.ports.wHam, hdone, fun j hj => by rw [getLsbD_extract]; simp [hj]⟩
  · rw [getLsbD_extBlock]; simp [hj]
  · exact extract_flipbit_of_ne w (Nat.two_pow_pos k) fun j _ => dataPos_ne_two_pow j k
  · have hlast := dataPos_last n
    have h3 := (dataPos_not_pow2 n).2
    exact extract_flipbit_of_ne w (by omega) fun j hj => ((dataPos_strictMono hj).trans_eq hlast).ne

/-! ### The decoder -/

/-- The last bit of the extended block is its appended parity bit, the data stand below it (R63). -/
theorem parity_eq_xor_last {n : Nat} (e : Bits (extWidth n)) : parity e = (parity (resize n e) ^^ e.getLsbD n) := by
  have hlow : popcount (resize n e) = countBelow (fun i => e.getLsbD i) n :=
    countBelow_congr fun k hk => by simp [resize, hk]
  have hall : popcount e = popcount (resize n e) + (e.getLsbD n).toNat := by rw [hlow]; rfl
  rw [parity, hall, odd_add, odd_toNat, parity]

/-- The agreement test (R124) is a parity check of the whole extended block. -/
theorem agrees_eq_not_parity {n : Nat} (e : Bits (extWidth n)) : agrees n e = !parity e := by
  rw [agrees, parity_eq_xor_last]
  cases e.getLsbD n <;> cases parity (resize n e) <;> rfl

section
variable {n x : Nat} {w : Bits (hamWidth n)}

theorem tentative_eq_flipbit (hx : x = positionsXor (hamWidth n) w) : tentative n w = flipbit w (x - 1) := by
  rw [tentative, syndrome_eq_positionsXor, hx]

/-- A syndrome that names a position: the parity after the tentative flip decides (R121, R124). -/
theorem decodePath_of_inRange (hx : x = positionsXor (hamWidth n) w) (h0 : 0 < x) (hT : x ≤ hamWidth n) :
    decodePath n w = if parity (extBlock n (flipbit w (x - 1))) then .double else .single := by
  rw [decodePath, syndrome_eq_positionsXor, ← hx, if_neg h0.ne', if_pos hT, tentative_eq_flipbit hx,
    agrees_eq_not_parity]
  cases parity (extBlock n (flipbit w (x - 1))) <;> rfl

/-- What HAM.DEC delivers on path SINGLE (R125). -/
theorem hamDecode_of_single {oor : OorPolicy} (h : decodePath n w = .single) :
    hamDecode oor n w = ⟨extract n (tentative n w), w, true, true, 1, 1⟩ := by
  rw [hamDecode, h]; rfl

/-- What HAM.DEC delivers on path DOUBLE (R126). -/
theorem hamDecode_of_double {oor : OorPolicy} (h : decodePath n w = .double) :
    hamDecode oor n w = ⟨extract n w, w, false, true, 2, 0⟩ := by
  rw [hamDecode, h]; rfl

end

/-- HAM.DEC makes no check: it finishes by delivering `hamDecode`. -/
theorem exec_hamDec {s : State} (hf : s.fault = 0#3) :
    exec .hamDec s = .next { s with
      out := .codec s.params.n (hamWidth s.params.n) (hamDecode s.params.oor s.params.n s.ports.wHam) } :=
  exec_done (by decide) hf rfl

/-- Settles O45: even parity after the tentative flip is path SINGLE. -/
theorem decodeSingleCorrects : Obligations.DecodeSingleCorrects := by
  intro s x hf hx h0 hT hpar
  have hpath : decodePath s.params.n s.ports.wHam = .single := by
    rw [decodePath_of_inRange hx h0 hT, hpar]; rfl
  rw [exec_hamDec hf, hamDecode_of_single hpath, tentative_eq_flipbit hx]

/-- Settles O46: odd parity after the tentative flip is path DOUBLE. -/
theorem decodeDoubleDetects : Obligations.DecodeDoubleDetects := by
  intro s x hf hx h0 hT hpar
  have hpath : decodePath s.params.n s.ports.wHam = .double := by
    rw [decodePath_of_inRange hx h0 hT, hpar]; rfl
  rw [exec_hamDec hf, hamDecode_of_double hpath]

end Sys2Proof.Machine
end

section
/-! PROOFS. The Chunk storage cell, CHUNK family (43_chunk.md). -/

namespace Sys2Proof.Machine

/-- With a strategy bound the null-strategy check passes (R164). -/
theorem checkStrategy_of_ne_none {st : Option Strategy} (h : st ≠ none) : checkStrategy st = none :=
  if_neg h

/-- CHUNK.STORE on a bound block loads the encoding and the datum (R142). -/
theorem exec_chunkStore {s : State} (hf : s.fault = 0#3) (hs : s.params.strat ≠ none) :
    exec .chunkStore s = .next (loadCell s (encodeFor s.params.strat s.ports.d) s.ports.d) :=
  exec_done (by decide) hf (by rw [checksOf, checkStrategy_of_ne_none hs]; rfl)

/-- CHUNK.RETRIEVE on a bound block only delivers its result (R145). -/
theorem exec_chunkRetrieve {s : State} (hf : s.fault = 0#3) (hs : s.params.strat ≠ none) :
    exec .chunkRetrieve s = .next (deliver (retrieveResult s) s) :=
  exec_done (by decide) hf (by rw [checksOf, checkStrategy_of_ne_none hs]; rfl)

section
variable (n : Nat) (st : Strategy) (oor : OorPolicy) (enc : Bits (encWidth (some st) n)) (orig : Bits n)
  (ports : Ports ⟨n, some st, oor⟩) (pending : List (Request ⟨n, some st, oor⟩)) (info : Option Nat) (out : Result)

/-- The cell after a store, with the codec of either strategy (R140, R142). -/
theorem exec_chunkStore_cell : exec .chunkStore (cell n st oor enc orig ports pending info out) =
    .next (cell n st oor (encodeFor (some st) ports.d) ports.d ports pending info .nothing) :=
  exec_chunkStore rfl (Option.some_ne_none st)

/-- The cell after a retrieve, with the report `r` of the bound codec on ENC (R140, R145). -/
theorem exec_chunkRetrieve_cell {r : CodecResult n (encWidth (some st) n)}
    (hr : decodeFor (some st) oor n enc = some r) :
    exec .chunkRetrieve (cell n st oor enc orig ports pending info out) =
      .next (cell n st oor enc orig ports pending info
        (.chunk n (encWidth (some st) n) (retrieved r enc orig))) := by
  have hres : retrieveResult (cell n st oor enc orig ports pending info out) =
      .chunk n (encWidth (some st) n) (retrieved r enc orig) := by
    simp only [retrieveResult, cell, hr]
  rw [exec_chunkRetrieve rfl (Option.some_ne_none st), hres]
  rfl

end

/-- Settles O54: `encodeFor` is `parEncode` or `hamEncode`, by the strategy bound. -/
theorem storeReplacesBoth : Obligations.StoreReplacesBoth :=
  ⟨fun n => exec_chunkStore_cell n .parity, fun n => exec_chunkStore_cell n .hamming⟩

/-- The flag CHUNK.RETRIEVE recomputes is the comparison with ORIG (R145). -/
theorem correctFlag_eq_decide {n : Nat} (x y : Bits n) : correctFlag x y = decide (x = y) :=
  beq_eq_decide x y

/-- Settles O57: `decodeFor` is `parDecode` or `hamDecode`, by the strategy bound; `retrieved` sets the rest. -/
theorem retrieveReportsAgainstGroundTruth : Obligations.RetrieveReportsAgainstGroundTruth := by
  constructor
  · intro n oor enc orig ports pending info out
    rw [exec_chunkRetrieve_cell n .parity oor enc orig ports pending info out rfl, retrieved, correctFlag_eq_decide]
  · intro n oor enc orig ports pending info out
    rw [exec_chunkRetrieve_cell n .hamming oor enc orig ports pending info out rfl, retrieved, correctFlag_eq_decide]

end Sys2Proof.Machine
end

section
/-! PROOFS. The command word, the step, and what an operation leaves unchanged (30_encoding.md, 10_state.md). -/

namespace Sys2Proof.Machine

/-! ### The command word (30_encoding.md section 3) -/

/-- An operation's word decodes to it (R71), from the table of `Laws.RoundTrip`. -/
theorem decode_encode (i : Instr) : decode (encode i) = some i := by
  cases i <;> rfl

/-- The opcode map is one-to-one (R71, R75): of the 256 words, only its own decodes to an operation. -/
theorem encode_of_decode {c : Cmd} {i : Instr} : decode c = some i → encode i = c := by
  revert c; cases i <;> decide

/-- The ranges of R72 hold no code of the opcode map. -/
theorem decode_eq_none_of_reserved : ∀ c : Cmd,
    (4 ≤ c.toNat / 16 ∨ (c.toNat / 16 = 0 ∧ 7 ≤ c.toNat % 16) ∨ (c.toNat / 16 = 1 ∧ 2 ≤ c.toNat % 16) ∨
      (c.toNat / 16 = 2 ∧ 5 ≤ c.toNat % 16) ∨ (c.toNat / 16 = 3 ∧ 4 ≤ c.toNat % 16)) → decode c = none := by
  decide

/-- Settles O1: both ways round, over the opcode map. -/
theorem commandWordsRoundTrip : Obligations.CommandWordsRoundTrip :=
  ⟨fun i => ⟨rfl, decode_encode i⟩, fun _ _ => encode_of_decode⟩

/-- Settles O2: each code is the operation's word, written out. -/
theorem opcodeMapCodes : Obligations.OpcodeMapCodes :=
  ⟨decode_encode .bvFromBuf, decode_encode .bvToBuf, decode_encode .bvResize, decode_encode .bvPopcnt,
    decode_encode .bvParity, decode_encode .bvTest, decode_encode .bvFlip, decode_encode .parEnc, decode_encode .parDec,
    decode_encode .hamEnc, decode_encode .hamDec, decode_encode .hamPlace, decode_encode .hamChecks,
    decode_encode .hamExtract, decode_encode .chunkInit, decode_encode .chunkStore, decode_encode .chunkCorrupt,
    decode_encode .chunkRetrieve⟩

/-! ### The step (10_state.md section 1) -/

theorem step_of_nil {s : State} (h : s.pending = []) : step s = .next s := by
  rw [step, h]

theorem step_of_cons {s : State} {r : Request s.params} {rest : List (Request s.params)} (h : s.pending = r :: rest) :
    step s = execCommand r.cmd (present s r.ports rest) := by
  rw [step, h]

theorem execCommand_some {c : Cmd} {i : Instr} (h : decode c = some i) (s : State) : execCommand c s = exec i s := by
  rw [execCommand, h]

theorem execCommand_none {c : Cmd} (h : decode c = none) (s : State) : execCommand c s = illegalCommand c s := by
  rw [execCommand, h]

theorem step_of_decode {s : State} {r : Request s.params} {rest : List (Request s.params)} {i : Instr}
    (h : s.pending = r :: rest) (hi : decode r.cmd = some i) : step s = exec i (present s r.ports rest) := by
  rw [step_of_cons h, execCommand_some hi]

/-- Settles O4: `present` puts the operands on the ports and takes the request. -/
theorem stepRunsDecodedOperation : Obligations.StepRunsDecodedOperation :=
  fun _ _ _ _ h hi => step_of_decode h hi

/-- Settles O5. -/
theorem idleBlockWaits : Obligations.IdleBlockWaits :=
  fun _ => step_of_nil

/-- A reserved code with no fault latched: FAULT is 5 and the code is recorded (R165). -/
theorem illegalCommand_of_live {s : State} (hf : s.fault = 0#3) (c : Cmd) :
    illegalCommand c s = .next { s with fault := 5#3, faultInfo := some c.toNat, out := .nothing } :=
  operate_raise (v := (.illegalCommand, some c.toNat)) hf rfl

/-- Settles O3: a reserved code decodes to nothing, and its one violation is the command itself. -/
theorem reservedCodesRaiseIllegalCommand : Obligations.ReservedCodesRaiseIllegalCommand := by
  refine ⟨by decide +kernel, fun s r rest h hf hc => ?_⟩
  rw [step_of_cons h, execCommand_none (decode_eq_none_of_reserved r.cmd hc)]
  exact illegalCommand_of_live (s := present s r.ports rest) hf r.cmd

/-! ### Frames: what an operation leaves (10_state.md section 1) -/

/-- `operate` answers `done`, or a state that differs from `s` in the fault record and `out` alone. -/
theorem operate_frame (s : State) (checks : List (Option Violation)) (done : State) :
    operate s checks done = .next done ∨
      ∃ (f : BitVec 3) (info : Option Nat),
        operate s checks done = .next { s with fault := f, faultInfo := info, out := .nothing } := by
  obtain ⟨-, h⟩ | ⟨v, -, -, h⟩ | ⟨-, -, h⟩ := operate_cases (s := s) (checks := checks) (done := done) rfl
  · exact .inr ⟨_, _, congrArg _ h⟩
  · exact .inr ⟨_, _, congrArg _ h⟩
  · exact .inl (congrArg _ h)

/-- No operation finishes with other parameters, ports, queue or fault record. -/
theorem doneOf_frame (i : Instr) (s : State) :
    ∃ (e : Bits (encWidth s.params.strat s.params.n)) (o : Bits s.params.n) (x : Result),
      doneOf i s = { s with enc := e, orig := o, out := x } := by
  cases i <;> exact ⟨_, _, _, rfl⟩

/-- Only CHUNK.STORE and CHUNK.CORRUPT finish in anything but the delivery of a result (R20, R21). -/
theorem doneOf_eq_deliver {i : Instr} (hinit : i ≠ .chunkInit) (hstore : i ≠ .chunkStore)
    (hcorrupt : i ≠ .chunkCorrupt) (s : State) : doneOf i s = deliver (doneOf i s).out s := by
  cases i
  case chunkInit => exact absurd rfl hinit
  case chunkStore => exact absurd rfl hstore
  case chunkCorrupt => exact absurd rfl hcorrupt
  all_goals rfl

/-- Every operation completes and keeps the parameters, the ports and the queue (R22, R48). -/
theorem exec_frame (i : Instr) (s : State) :
    ∃ (e : Bits (encWidth s.params.strat s.params.n)) (o : Bits s.params.n) (f : BitVec 3) (info : Option Nat)
      (x : Result), exec i s = .next { s with enc := e, orig := o, fault := f, faultInfo := info, out := x } := by
  by_cases hi : i = .chunkInit
  · subst hi
    by_cases hs : s.params.strat = none
    · exact ⟨_, _, _, _, _, exec_chunkInit_none hs⟩
    · exact ⟨_, _, _, _, _, exec_chunkInit_some hs⟩
  · rw [exec_eq_operate hi]
    obtain ⟨e, o, x, hdone⟩ := doneOf_frame i s
    obtain h | ⟨f, info, h⟩ := operate_frame s (checksOf i s) (doneOf i s)
    · exact ⟨e, o, _, _, x, h.trans (congrArg _ hdone)⟩
    · exact ⟨_, _, f, info, _, h⟩

/-- Settles O6: `exec_frame`, and a reserved code is one `operate` as well. -/
theorem stepTakesOneOperation : Obligations.StepTakesOneOperation := by
  intro s r rest h
  rw [step_of_cons h]
  cases hd : decode r.cmd with
  | some i =>
    rw [execCommand_some hd]
    exact exec_frame i (present s r.ports rest)
  | none =>
    rw [execCommand_none hd, illegalCommand]
    obtain h | ⟨f, info, h⟩ := operate_frame (present s r.ports rest) _ (present s r.ports rest)
    · exact ⟨_, _, _, _, _, h⟩
    · exact ⟨_, _, f, info, _, h⟩

/-- Settles O17: the other operations finish by delivering a result; CHUNK.CORRUPT finishes by loading ENC. -/
theorem registersWrittenOnlyByCell : Obligations.RegistersWrittenOnlyByCell := by
  refine ⟨fun s i hinit hstore hcorrupt => ?_, fun s => ?_⟩
  · rw [exec_eq_operate hinit]
    obtain h | ⟨f, info, h⟩ := operate_frame s (checksOf i s) (doneOf i s)
    · exact ⟨_, _, _, h.trans (congrArg _ (doneOf_eq_deliver hinit hstore hcorrupt s))⟩
    · exact ⟨f, info, _, h⟩
  · rw [exec_eq_operate (by decide)]
    obtain h | ⟨f, info, h⟩ := operate_frame s (checksOf .chunkCorrupt s) (doneOf .chunkCorrupt s)
    · exact ⟨_, _, _, h⟩
    · exact ⟨_, f, info, h⟩

/-- `s` with other registers, all else the same. -/
def State.withRegisters (s : State) (e : Bits (encWidth s.params.strat s.params.n)) (o : Bits s.params.n) : State :=
  { s with enc := e, orig := o }

/-- No check looks at ENC or ORIG (R46). -/
theorem checksOf_withRegisters (i : Instr) (s : State) (e : Bits (encWidth s.params.strat s.params.n))
    (o : Bits s.params.n) : checksOf i (s.withRegisters e o) = checksOf i s := by
  cases i <;> rfl

/-- Outside the CHUNK family the result does not depend on ENC or ORIG (R24). -/
theorem doneOf_withRegisters {i : Instr} (hinit : i ≠ .chunkInit) (hstore : i ≠ .chunkStore)
    (hcorrupt : i ≠ .chunkCorrupt) (hretrieve : i ≠ .chunkRetrieve) (s : State)
    (e : Bits (encWidth s.params.strat s.params.n)) (o : Bits s.params.n) :
    doneOf i (s.withRegisters e o) = deliver (doneOf i s).out (s.withRegisters e o) := by
  cases i
  case chunkInit => exact absurd rfl hinit
  case chunkStore => exact absurd rfl hstore
  case chunkCorrupt => exact absurd rfl hcorrupt
  case chunkRetrieve => exact absurd rfl hretrieve
  all_goals rfl

/-- Settles O18: neither the checks nor the result look at ENC or ORIG, so `operate` goes the same way. -/
theorem codecsIgnoreRegisters : Obligations.CodecsIgnoreRegisters := by
  intro s i hinit hstore hcorrupt hretrieve
  by_cases hf : s.fault = 0#3
  · cases hv : firstViolation (checksOf i s) with
    | none =>
      refine ⟨s.fault, s.faultInfo, (doneOf i s).out, fun e o => ?_⟩
      refine (exec_done (s := s.withRegisters e o) hinit hf (by rw [checksOf_withRegisters, hv])).trans ?_
      rw [doneOf_withRegisters hinit hstore hcorrupt hretrieve]
      rfl
    | some v =>
      exact ⟨v.1.code, v.2, .nothing, fun e o =>
        exec_raise (s := s.withRegisters e o) hinit hf (by rw [checksOf_withRegisters, hv])⟩
  · exact ⟨s.fault, s.faultInfo, .nothing, fun e o =>
      (exec_eq_operate hinit (s.withRegisters e o)).trans (operate_faulted hf)⟩

end Sys2Proof.Machine
end

section
/-! PROOFS. Reset, the fault latch and the invariant (10_state.md, 60_exceptions.md, 70_reset_and_hazards.md). -/

namespace Sys2Proof.Machine

/-! ### What an operation and a step can answer -/

/-- A fault is latched: every operation but CHUNK.INIT is ignored (R168). -/
theorem exec_of_faulted {i : Instr} (hi : i ≠ .chunkInit) {s : State} (hf : s.fault ≠ 0#3) :
    exec i s = .next { s with out := .nothing } := by
  rw [exec_eq_operate hi, operate_faulted hf]

/-- A fault is latched: every code but that of CHUNK.INIT, a reserved one included, is ignored (R168). -/
theorem execCommand_of_faulted {c : Cmd} (hc : c ≠ 0x30#8) {s : State} (hf : s.fault ≠ 0#3) :
    execCommand c s = .next { s with out := .nothing } := by
  cases hd : decode c with
  | none => rw [execCommand_none hd, illegalCommand, operate_faulted hf]
  | some i =>
    have hi : i ≠ .chunkInit := fun h => hc (by rw [← encode_of_decode hd, h]; rfl)
    rw [execCommand_some hd, exec_of_faulted hi hf]

/-- Settles O11. -/
theorem faultedBlockIgnores : Obligations.FaultedBlockIgnores :=
  ⟨fun _ _ hf hi => exec_of_faulted hi hf, fun s r rest h hf hc =>
    (step_of_cons h).trans (execCommand_of_faulted (s := present s r.ports rest) hc hf)⟩

/-! ### Reset (10_state.md section 4) -/

/-- Settles O7: the fields of `State.resetOf`. -/
theorem resetClearsRegisters : Obligations.ResetClearsRegisters :=
  fun _ => ⟨rfl, rfl, rfl, fun h => if_neg h, fun h => if_pos h⟩

/-! ### When an operation raises a fault (60_exceptions.md sections 1 and 2) -/

theorem mem_of_firstViolation {checks : List (Option Violation)} {v : Violation} (h : firstViolation checks = some v) :
    some v ∈ checks := by
  induction checks with
  | nil => exact absurd h (by simp)
  | cons c checks ih =>
    cases c with
    | some u => exact h ▸ List.mem_cons_self
    | none => exact List.mem_cons_of_mem _ (ih h)

/-- Of the faults, NullStrategy alone records no `info` (section 2). -/
def RecordsInfo (v : Violation) : Prop := v.2 = none ↔ v.1 = .nullStrategy

section
variable {v : Violation}

theorem recordsInfo_checkIndex {idx w : Nat} (h : some v = checkIndex idx w) : RecordsInfo v := by
  obtain ⟨-, rfl⟩ : w ≤ idx ∧ v = (.indexOutOfRange, some idx) := by simpa [checkIndex] using h
  simp [RecordsInfo]

theorem recordsInfo_checkLength {len w : Nat} (h : some v = checkLength len w) : RecordsInfo v := by
  obtain ⟨-, rfl⟩ : w < len ∧ v = (.lengthExceedsWidth, some len) := by simpa [checkLength] using h
  simp [RecordsInfo]

theorem recordsInfo_checkBuffer {buf : List Byte} {bits : Nat} (h : some v = checkBuffer buf bits) : RecordsInfo v := by
  obtain ⟨-, rfl⟩ : buf.length < ceilBytes bits ∧ v = (.bufferTooSmall, some buf.length) := by
    simpa [checkBuffer] using h
  simp [RecordsInfo]

theorem recordsInfo_checkStrategy {st : Option Strategy} (h : some v = checkStrategy st) : RecordsInfo v := by
  obtain ⟨-, rfl⟩ : st = none ∧ v = (.nullStrategy, none) := by simpa [checkStrategy] using h
  simp [RecordsInfo]

theorem recordsInfo_of_mem_checksOf {i : Instr} {s : State} (h : some v ∈ checksOf i s) : RecordsInfo v := by
  cases i <;> simp only [checksOf, List.mem_cons, List.not_mem_nil, or_false] at h
  case bvFromBuf => exact h.elim recordsInfo_checkLength recordsInfo_checkBuffer
  case bvToBuf => exact recordsInfo_checkBuffer h
  case bvTest => exact recordsInfo_checkIndex h
  case bvFlip => exact recordsInfo_checkIndex h
  case chunkStore => exact recordsInfo_checkStrategy h
  case chunkCorrupt => exact h.elim recordsInfo_checkStrategy recordsInfo_checkIndex
  case chunkRetrieve => exact recordsInfo_checkStrategy h

end

/-! ### The invariant (10_state.md section 2) -/

theorem Fault.code_le (f : Fault) : f.code.toNat ≤ 5 := by cases f <;> decide

theorem Fault.code_eq_four (f : Fault) : f.code = 4#3 ↔ f = .nullStrategy := by cases f <;> decide

/-- An ignored operation keeps the invariant. -/
theorem inv_ignored {s : State} (h : s.Inv) : ({ s with out := .nothing } : State).Inv := by
  obtain ⟨hrecorded, hnull, -, -⟩ := h
  exact ⟨hrecorded, hnull, fun _ => rfl, trivial⟩

/-- Fault entry meets the invariant, whatever the state was. -/
theorem inv_raised {v : Violation} (hv : RecordsInfo v) (s : State) :
    ({ s with fault := v.1.code, faultInfo := v.2, out := .nothing } : State).Inv := by
  refine ⟨⟨v.1.code_le, ?_⟩, fun _ => v.1.code_ne_zero, fun _ => rfl, trivial⟩
  rw [v.1.code_eq_four]
  exact hv.trans (or_iff_right v.1.code_ne_zero).symm

/-- Registers and results change freely while no fault is latched, as long as the result is coherent. -/
theorem inv_done {s : State} (h : s.Inv) (hf : s.fault = 0#3) (e : Bits (encWidth s.params.strat s.params.n))
    (o : Bits s.params.n) {x : Result} (hx : x.Coherent) : ({ s with enc := e, orig := o, out := x } : State).Inv := by
  obtain ⟨hrecorded, hnull, -, -⟩ := h
  exact ⟨hrecorded, hnull, fun hne => absurd hf hne, hx⟩

theorem coherent_parDecode (n : Nat) (w : Bits (parWidth n)) : (parDecode n w).Coherent := by
  unfold parDecode CodecResult.Coherent bundle parityFlags
  cases parity w <;> simp

theorem coherent_hamDecode (oor : OorPolicy) (n : Nat) (w : Bits (hamWidth n)) : (hamDecode oor n w).Coherent := by
  have hopen := (Config.oorCorrupt n w.toNat).isLt
  unfold hamDecode CodecResult.Coherent
  cases decodePath n w
  case outOfRange =>
    cases oor
    · simp [outOfRangeResult, bundle, pathFlags]
    · simp [outOfRangeResult, bundle, openFlags]; omega
  all_goals simp [bundle, pathFlags]

theorem coherent_decodeFor {st : Option Strategy} {oor : OorPolicy} {n : Nat} {w : Bits (encWidth st n)}
    {r : CodecResult n (encWidth st n)} (h : decodeFor st oor n w = some r) : r.Coherent := by
  cases st with
  | none => exact absurd h (by simp [decodeFor])
  | some st =>
    cases st <;> obtain rfl := Option.some.inj h
    · exact coherent_parDecode n w
    · exact coherent_hamDecode oor n w

/-- CHUNK.RETRIEVE adds to a coherent report the comparison with ORIG (R31). -/
theorem coherent_retrieveResult (s : State) : (retrieveResult s).Coherent := by
  unfold retrieveResult
  cases h : decodeFor s.params.strat s.params.oor s.params.n s.enc with
  | none => trivial
  | some r =>
    have hr : r.Coherent := coherent_decodeFor h
    exact ⟨hr, by simp [retrieved, correctFlag]⟩

theorem coherent_doneOf {i : Instr} (hi : i ≠ .chunkInit) (s : State) : (doneOf i s).out.Coherent := by
  cases i
  case chunkInit => exact absurd rfl hi
  case parDec => exact coherent_parDecode _ _
  case hamDec => exact coherent_hamDecode _ _ _
  case chunkRetrieve => exact coherent_retrieveResult s
  all_goals trivial

/-- The invariant passes through `operate`: ignored, raised or finished. -/
theorem operate_keeps_inv {s t done : State} {checks : List (Option Violation)} (h : s.Inv)
    (hchecks : ∀ v, some v ∈ checks → RecordsInfo v) (hdone : s.fault = 0#3 → done.Inv)
    (ht : operate s checks done = .next t) : t.Inv := by
  obtain ⟨-, rfl⟩ | ⟨v, -, hv, rfl⟩ | ⟨hf, -, rfl⟩ := operate_cases ht
  · exact inv_ignored h
  · exact inv_raised (hchecks v (mem_of_firstViolation hv)) s
  · exact hdone hf

/-- CHUNK.INIT leaves a bound block with a clear fault record, and an unbound one with NullStrategy (R141, R164). -/
theorem execChunkInit_keeps_inv {s t : State} (h : s.Inv) (ht : exec .chunkInit s = .next t) : t.Inv := by
  by_cases hs : s.params.strat = none
  · rw [exec_chunkInit_none hs] at ht
    obtain rfl := Host.Outcome.next.inj ht
    have ⟨_, hnull, _⟩ := h
    rw [raise_of_faulted (hnull hs)]
    exact inv_ignored h
  · rw [exec_chunkInit_some hs] at ht
    obtain rfl := Host.Outcome.next.inj ht
    exact ⟨⟨by simp, by simp⟩, fun hn => absurd hn hs, fun hne => absurd rfl hne, trivial⟩

theorem exec_keeps_inv {i : Instr} {s t : State} (h : s.Inv) (ht : exec i s = .next t) : t.Inv := by
  by_cases hi : i = .chunkInit
  · subst hi
    exact execChunkInit_keeps_inv h ht
  · rw [exec_eq_operate hi] at ht
    refine operate_keeps_inv h (fun v hv => recordsInfo_of_mem_checksOf hv) (fun hf => ?_) ht
    have hx := coherent_doneOf hi s
    obtain ⟨e, o, x, hdone⟩ := doneOf_frame i s
    rw [hdone] at hx ⊢
    exact inv_done h hf e o hx

theorem execCommand_keeps_inv {c : Cmd} {s t : State} (h : s.Inv) (ht : execCommand c s = .next t) : t.Inv := by
  cases hd : decode c with
  | some i =>
    rw [execCommand_some hd] at ht
    exact exec_keeps_inv h ht
  | none =>
    rw [execCommand_none hd] at ht
    refine operate_keeps_inv h (fun v hv => ?_) (fun _ => h) ht
    obtain rfl : v = (.illegalCommand, some c.toNat) := by simpa using hv
    simp [RecordsInfo]

/-- Settles O15: taking a request does not touch what `Inv` speaks of, and every command keeps it. -/
theorem stepKeepsInvariant : Obligations.StepKeepsInvariant := by
  intro s t h ht
  cases hp : s.pending with
  | nil =>
    rw [step_of_nil hp] at ht
    exact Host.Outcome.next.inj ht ▸ h
  | cons r rest =>
    rw [step_of_cons hp] at ht
    have hpresent : (present s r.ports rest).Inv := h
    exact execCommand_keeps_inv hpresent ht

/-- Settles O14: the fault record is empty, or NullStrategy where no strategy is bound. -/
theorem invariantAtReset : Obligations.InvariantAtReset := by
  intro p
  by_cases hs : p.strat = none
  · have hfault : (State.resetOf p).fault = 4#3 := if_pos hs
    refine ⟨⟨?_, fun _ => .inr hfault, fun _ => rfl⟩, fun _ => ?_, fun _ => rfl, trivial⟩
    all_goals rw [hfault]; decide
  · have hfault : (State.resetOf p).fault = 0#3 := if_neg hs
    refine ⟨⟨?_, fun _ => .inl hfault, fun _ => rfl⟩, fun h => absurd h hs, fun _ => rfl, trivial⟩
    rw [hfault]
    decide

theorem step_params {s t : State} (h : step s = .next t) : t.params = s.params := by
  cases hp : s.pending with
  | nil =>
    rw [step_of_nil hp] at h
    rw [Host.Outcome.next.inj h]
  | cons r rest =>
    obtain ⟨e, o, f, info, x, hs⟩ := stepTakesOneOperation s r rest hp
    rw [hs] at h
    rw [← Host.Outcome.next.inj h]

/-- Settles O16: by induction over how the state was reached; issuing an operation touches only the queue. -/
theorem reachableStatesMeetInvariant : Obligations.ReachableStatesMeetInvariant := by
  intro p s h
  induction h with
  | reset => exact ⟨invariantAtReset p, rfl⟩
  | issue s r _ ih => exact ih
  | step s t _ hst ih =>
    obtain ⟨hinv, hparams⟩ := ih
    exact ⟨stepKeepsInvariant s t hinv hst, (step_params hst).trans hparams⟩

/-! ### The fault latch (60_exceptions.md section 3) -/

/-- On a faulted block CHUNK.INIT clears the latch, or finds no strategy and the first fault wins (R141, R167). -/
theorem fault_of_chunkInit_faulted {s t : State} (hf : s.fault ≠ 0#3) (ht : exec .chunkInit s = .next t) :
    t.fault = s.fault ∨ t.fault = 0#3 := by
  by_cases hs : s.params.strat = none
  · rw [exec_chunkInit_none hs, raise_of_faulted hf] at ht
    exact .inl (Host.Outcome.next.inj ht ▸ rfl)
  · rw [exec_chunkInit_some hs] at ht
    exact .inr (Host.Outcome.next.inj ht ▸ rfl)

/-- Settles O13: only CHUNK.INIT executes on a faulted block. -/
theorem faultLatchIsSticky : Obligations.FaultLatchIsSticky := by
  intro s t hf ht
  cases hp : s.pending with
  | nil =>
    rw [step_of_nil hp] at ht
    exact .inl (Host.Outcome.next.inj ht ▸ rfl)
  | cons r rest =>
    by_cases hc : r.cmd = 0x30#8
    · have hd : decode r.cmd = some .chunkInit := hc ▸ decode_encode .chunkInit
      rw [step_of_decode hp hd] at ht
      exact (fault_of_chunkInit_faulted (s := present s r.ports rest) hf ht).imp_right
        fun hclear => ⟨hclear, r, rest, rfl, hc⟩
    · rw [step_of_cons hp, execCommand_of_faulted (s := present s r.ports rest) hc hf] at ht
      exact .inl (Host.Outcome.next.inj ht ▸ rfl)

end Sys2Proof.Machine
end

section
/-! PROOFS. The fault table (60_exceptions.md sections 1 to 3). -/

namespace Sys2Proof.Machine

/-- The code FAULT takes when the checks of a command give `v`, on a block with no fault latched. -/
def faultAfter (v : Option Violation) : BitVec 3 :=
  match v with
  | none => 0#3
  | some v => v.1.code

/-- The violation a command raises on a block with no fault latched, if any (R160). -/
def violationOf (d : Option Instr) (c : Cmd) (s : State) : Option Violation :=
  match d with
  | none => some (.illegalCommand, some c.toNat)
  | some .chunkInit => checkStrategy s.params.strat
  | some i => firstViolation (checksOf i s)

theorem violationOf_some {i : Instr} (hi : i ≠ .chunkInit) (c : Cmd) (s : State) :
    violationOf (some i) c s = firstViolation (checksOf i s) := by
  cases i
  case chunkInit => exact absurd rfl hi
  all_goals rfl

theorem fault_doneOf {i : Instr} {s : State} : (doneOf i s).fault = s.fault := by
  obtain ⟨e, o, x, h⟩ := doneOf_frame i s
  rw [h]

theorem fault_of_operate {s t done : State} {checks : List (Option Violation)} (hf : s.fault = 0#3)
    (hdone : done.fault = 0#3) (ht : operate s checks done = .next t) :
    t.fault = faultAfter (firstViolation checks) := by
  obtain ⟨hne, -⟩ | ⟨v, -, hv, rfl⟩ | ⟨-, hv, rfl⟩ := operate_cases ht
  · exact absurd hf hne
  · rw [hv]; rfl
  · rw [hv, hdone]; rfl

/-- From FAULT = 0 a command sets FAULT to the code of its first violation, and to nothing else (R160, R166). -/
theorem fault_of_execCommand {c : Cmd} {s t : State} (hf : s.fault = 0#3) (ht : execCommand c s = .next t) :
    t.fault = faultAfter (violationOf (decode c) c s) := by
  cases hd : decode c with
  | none =>
    rw [execCommand_none hd] at ht
    exact fault_of_operate hf hf ht
  | some i =>
    rw [execCommand_some hd] at ht
    by_cases hi : i = .chunkInit
    · subst hi
      by_cases hs : s.params.strat = none
      · rw [exec_chunkInit_none hs] at ht
        rw [← Host.Outcome.next.inj ht, violationOf, hs]
        exact if_pos hf
      · rw [exec_chunkInit_some hs] at ht
        rw [← Host.Outcome.next.inj ht, violationOf, checkStrategy, if_neg hs]
        rfl
    · rw [exec_eq_operate hi] at ht
      rw [violationOf_some hi]
      exact fault_of_operate hf (fault_doneOf.trans hf) ht

theorem faultAfter_firstViolation_cons (c : Option Violation) (checks : List (Option Violation)) :
    faultAfter (firstViolation (c :: checks)) =
      if faultAfter c = 0#3 then faultAfter (firstViolation checks) else faultAfter c := by
  cases c with
  | none => rfl
  | some v => exact (if_neg v.1.code_ne_zero).symm

@[simp] theorem faultAfter_none : faultAfter none = 0#3 := rfl

@[simp] theorem faultAfter_checkIndex (idx w : Nat) :
    faultAfter (checkIndex idx w) = if w ≤ idx then 1#3 else 0#3 := by
  unfold checkIndex; split <;> rfl

@[simp] theorem faultAfter_checkLength (len w : Nat) :
    faultAfter (checkLength len w) = if w < len then 2#3 else 0#3 := by
  unfold checkLength; split <;> rfl

@[simp] theorem faultAfter_checkBuffer (buf : List Byte) (bits : Nat) :
    faultAfter (checkBuffer buf bits) = if buf.length < (bits + 7) / 8 then 3#3 else 0#3 := by
  unfold checkBuffer ceilBytes; split <;> rfl

@[simp] theorem faultAfter_checkStrategy (st : Option Strategy) :
    faultAfter (checkStrategy st) = if st = none then 4#3 else 0#3 := by
  unfold checkStrategy; split <;> rfl

/-- Settles O12: each operation's checks, in their order, against each row of the table. -/
theorem faultTable : Obligations.FaultTable := by
  intro s t r rest hp hf ht
  rw [step_of_cons hp] at ht
  have hfault := fault_of_execCommand (s := present s r.ports rest) hf ht
  cases hd : decode r.cmd with
  | none =>
    have hfive : t.fault = 5#3 := by rw [hfault, hd]; rfl
    have hne (c : Cmd) (hc : (decode c).isSome = true) : r.cmd ≠ c := fun h => by simp [← h, hd] at hc
    simp [hfive, hne 0x00#8 rfl, hne 0x01#8 rfl, hne 0x05#8 rfl, hne 0x06#8 rfl, hne 0x30#8 rfl, hne 0x31#8 rfl,
      hne 0x32#8 rfl, hne 0x33#8 rfl]
  | some i =>
    have hc := (encode_of_decode hd).symm
    rw [hd] at hfault
    cases i
    all_goals
      simp only [violationOf, checksOf, faultAfter_firstViolation_cons, firstViolation_nil, faultAfter_checkIndex,
        faultAfter_checkLength, faultAfter_checkBuffer, faultAfter_checkStrategy, faultAfter_none, present_ports,
        present_params] at hfault
      simp only [encode, cmdOf] at hc
      simp only [hfault, hc]
    case bvFromBuf | bvToBuf | bvTest | bvFlip | chunkInit | chunkStore | chunkCorrupt | chunkRetrieve =>
      split_ifs <;> simp_all
    all_goals simp

end Sys2Proof.Machine
end

section
/-! PROOFS. The bit-vector units, BV family: buffers, resizing, tests and flips (40_bitvector.md). -/

namespace Sys2Proof.Machine

/-! ### Buffers (section 1) -/

/-- The bits below `len` are read, whatever of the last byte lies above them (R80, R47). -/
theorem getLsbD_fromBuffer {w : Nat} (buf : List Byte) (len i : Nat) (hi : i < w) :
    (fromBuffer w buf len).getLsbD i = (decide (i < len) && (buf.getD (i / 8) 0#8).getLsbD (i % 8)) := by
  rw [fromBuffer, getLsbD_bitsOf, getLsbD_memRead, ceilBytes]
  by_cases hlen : i < len
  · have hin : i < 8 * ((len + 7) / 8) := by omega
    simp [hi, hlen, hin]
  · simp [hlen]

theorem length_toBuffer {w : Nat} (a : Bits w) (buf : List Byte) : (toBuffer a buf).length = buf.length :=
  length_memWrite _ _ _ _

/-- Bytes past the written range are the caller's (R81). -/
theorem getD_toBuffer_of_ge {w : Nat} (a : Bits w) (buf : List Byte) {k : Nat} (hk : (w + 7) / 8 ≤ k) :
    (toBuffer a buf).getD k 0#8 = buf.getD k 0#8 := by
  rcases Nat.lt_or_ge k buf.length with hlt | hge
  · rw [toBuffer, getD_memWrite _ _ _ _ _ hlt, if_neg (by unfold ceilBytes; omega)]
  · rw [List.getD_eq_default _ _ hge, List.getD_eq_default _ _ (by rwa [length_toBuffer])]

/-- A byte of the written range holds eight bits of the operand, zeros at and above bit `w` (R81, D13). -/
theorem getLsbD_getD_toBuffer {w : Nat} (a : Bits w) (buf : List Byte) {k b : Nat} (hlen : k < buf.length)
    (hk : k < (w + 7) / 8) (hb : b < 8) :
    ((toBuffer a buf).getD k 0#8).getLsbD b = (decide (8 * k + b < w) && a.getLsbD (8 * k + b)) := by
  have hin : 8 * k + b < 8 * ceilBytes w := by unfold ceilBytes; omega
  rw [toBuffer, getD_memWrite _ _ _ _ _ hlen, if_pos (by unfold ceilBytes; omega), BitVec.getLsbD_extractLsb', resize,
    BitVec.getLsbD_setWidth, Nat.sub_zero]
  rcases Nat.lt_or_ge (8 * k + b) w with h | h
  · simp [hb, hin, h]
  · simp [BitVec.getLsbD_of_ge a _ h]

section
variable {s : State} (hf : s.fault = 0#3)
include hf

theorem exec_bvFromBuf (hlen : s.ports.len ≤ s.ports.bvW) (hbuf : (s.ports.len + 7) / 8 ≤ s.ports.buf.length) :
    exec .bvFromBuf s =
      .next { s with out := .q s.ports.bvW (fromBuffer s.ports.bvW s.ports.buf s.ports.len) } :=
  exec_done (by decide) hf (by rw [checksOf, checkLength_ok hlen, checkBuffer_ok hbuf]; rfl)

theorem exec_bvToBuf (hbuf : (s.ports.bvW + 7) / 8 ≤ s.ports.buf.length) :
    exec .bvToBuf s = .next { s with out := .buf (toBuffer s.ports.a s.ports.buf) } :=
  exec_done (by decide) hf (by rw [checksOf, checkBuffer_ok hbuf]; rfl)

end

/-- Settles O19. -/
theorem fromBufReadsBits : Obligations.FromBufReadsBits :=
  fun _ hf hlen hbuf => ⟨_, exec_bvFromBuf hf hlen hbuf, fun _ => getLsbD_fromBuffer _ _ _⟩

/-- Settles O20: the first of the two checks that fails. -/
theorem fromBufFaults : Obligations.FromBufFaults := by
  intro s hf
  constructor
  · intro hlen
    exact exec_raise (v := (.lengthExceedsWidth, some s.ports.len)) (by decide) hf
      (by rw [checksOf, checkLength_bad hlen]; rfl)
  · intro hlen hbuf
    exact exec_raise (v := (.bufferTooSmall, some s.ports.buf.length)) (by decide) hf
      (by rw [checksOf, checkLength_ok hlen, checkBuffer_bad hbuf]; rfl)

/-- Settles O21. -/
theorem toBufWritesBytes : Obligations.ToBufWritesBytes := by
  intro s hf hbuf
  refine ⟨_, exec_bvToBuf hf hbuf, length_toBuffer _ _, fun k hk b hb => ?_⟩
  rw [length_toBuffer] at hk
  split
  · next hin => exact getLsbD_getD_toBuffer _ _ hk hin hb
  · next hout => rw [getD_toBuffer_of_ge _ _ (Nat.le_of_not_lt hout)]

/-- Settles O22: the only check fails. -/
theorem toBufFaults : Obligations.ToBufFaults := by
  intro s hf hbuf
  exact exec_raise (v := (.bufferTooSmall, some s.ports.buf.length)) (by decide) hf
    (by rw [checksOf, checkBuffer_bad hbuf]; rfl)

/-- A written buffer, read bit by bit through what BV.FROMBUF read: the source's bits below `len`, then zeros (R87). -/
theorem getLsbD_getD_toBuffer_fromBuffer {w len i : Nat} (src dst : List Byte) (hlen : len ≤ w)
    (hdst : (w + 7) / 8 ≤ dst.length) (hi : i < 8 * ((w + 7) / 8)) :
    ((toBuffer (fromBuffer w src len) dst).getD (i / 8) 0#8).getLsbD (i % 8) =
      (decide (i < len) && (src.getD (i / 8) 0#8).getLsbD (i % 8)) := by
  rw [getLsbD_getD_toBuffer _ _ (by omega) (by omega) (Nat.mod_lt _ (by decide)), Nat.div_add_mod]
  by_cases hw : i < w
  · rw [getLsbD_fromBuffer _ _ _ hw, decide_eq_true hw, Bool.true_and]
  · have hnot : ¬ i < len := by omega
    simp [hw, hnot]

/-- Settles O23. -/
theorem bufferRoundTrip : Obligations.BufferRoundTrip := by
  intro s dst hf hlen hbuf hdst
  refine ⟨fromBuffer s.ports.bvW s.ports.buf s.ports.len, _, exec_bvFromBuf hf hlen hbuf, exec_bvToBuf hf hdst,
    length_toBuffer _ _, fun i hi => ?_, fun i hi hin => ?_, fun k hk => getD_toBuffer_of_ge _ _ hk⟩
  · refine (getLsbD_getD_toBuffer_fromBuffer _ _ hlen hdst (by omega)).trans ?_
    rw [decide_eq_true hi, Bool.true_and]
  · refine (getLsbD_getD_toBuffer_fromBuffer _ _ hlen hdst hin).trans ?_
    rw [decide_eq_false (by omega), Bool.false_and]

/-! ### Resizing (sections 2 and 5) -/

/-- Settles O24: BV.RESIZE makes no check. -/
theorem resizeCopiesAndZeroFills : Obligations.ResizeCopiesAndZeroFills := by
  intro s hf
  have hdone : exec .bvResize s = .next (doneOf .bvResize s) := exec_done (by decide) hf rfl
  refine ⟨resize s.ports.bvM s.ports.a, hdone, fun i hi => ?_⟩
  rw [resize, BitVec.getLsbD_setWidth, decide_eq_true hi, Bool.true_and]
  by_cases hw : i < s.ports.bvW
  · simp [hw]
  · simp [hw, BitVec.getLsbD_of_ge s.ports.a i (Nat.le_of_not_lt hw)]

/-- Positions that hold 0 do not count. -/
theorem countBelow_of_false_above {f : Nat → Bool} {w m : Nat} (hm : w ≤ m) (hf : ∀ k, w ≤ k → f k = false) :
    countBelow f m = countBelow f w := by
  induction m, hm using Nat.le_induction with
  | base => rfl
  | succ m hle ih => rw [countBelow, hf m hle, ih]; rfl

theorem popcount_resize_of_le {w m : Nat} (a : Bits w) (h : w ≤ m) : popcount (resize m a) = popcount a := by
  have hbits : ∀ k < m, (resize m a).getLsbD k = a.getLsbD k := fun k hk => by simp [resize, hk]
  rw [popcount, countBelow_congr hbits, countBelow_of_false_above h fun k hk => BitVec.getLsbD_of_ge a k hk, popcount]

theorem parity_resize_of_le {w m : Nat} (a : Bits w) (h : w ≤ m) : parity (resize m a) = parity a := by
  rw [parity, popcount_resize_of_le a h, parity]

/-- Cutting to `m` bits loses bit `m`. -/
theorem resize_twoPow (w m : Nat) : resize m (BitVec.twoPow w m) = 0#m := by
  apply BitVec.eq_of_getLsbD_eq
  intro i hi
  have hne : m ≠ i := by omega
  simp [resize, BitVec.getLsbD_twoPow, hne]

@[simp] theorem popcount_zero (w : Nat) : popcount (0#w) = 0 := by
  simp [popcount, countBelow_false]

/-- A vector of odd parity is not zero. -/
theorem ne_zero_of_parity {w : Nat} {v : Bits w} (h : parity v = true) : v ≠ 0#w := by
  rintro rfl
  simp at h

/-- Settles O25: for a narrower width the operand is bit `m` alone, which the cut loses. -/
theorem resizeLaws : Obligations.ResizeLaws := by
  refine ⟨fun w m a h => ⟨?_, popcount_resize_of_le a h, parity_resize_of_le a h⟩, fun w m h => ?_⟩
  · simp [resize, BitVec.setWidth_setWidth_of_le, h]
  · have hpar : parity (BitVec.twoPow w m) = true := parity_twoPow h
    refine ⟨BitVec.twoPow w m, ?_, ?_, ?_⟩ <;> rw [resize_twoPow]
    · intro he
      exact ne_zero_of_parity hpar (by rw [← he]; simp [resize])
    · intro he
      rw [popcount_zero] at he
      simp [parity, ← he] at hpar
    · simp [hpar]

/-! ### Counting, testing and flipping (sections 3 and 4) -/

/-- Settles O27: BV.PARITY makes no check and delivers `parity a`. -/
theorem paritySumsModuloTwo : Obligations.ParitySumsModuloTwo := by
  intro s hf
  have hdone : exec .bvParity s = .next (doneOf .bvParity s) := exec_done (by decide) hf rfl
  rw [hdone, doneOf, deliver, parity_eq_decide_length_filter]

/-- Settles O28. -/
theorem testReadsBit : Obligations.TestReadsBit := by
  intro s hf
  constructor
  · intro hi
    exact exec_done (i := .bvTest) (by decide) hf (by rw [checksOf, checkIndex_ok hi]; rfl)
  · intro hi
    exact exec_raise (v := (.indexOutOfRange, some s.ports.idx)) (by decide) hf
      (by rw [checksOf, checkIndex_bad hi]; rfl)

/-- A flip inverts its own bit and no other (R14). -/
theorem getLsbD_flipbit_eq_ite {w i j : Nat} (v : Bits w) (hj : j < w) :
    (flipbit v i).getLsbD j = if j = i then !v.getLsbD j else v.getLsbD j := by
  rw [getLsbD_flipbit]
  by_cases h : i = j
  · simp [hj, h]
  · simp [h, Ne.symm h]

/-- Settles O29. -/
theorem flipInvertsBit : Obligations.FlipInvertsBit := by
  intro s hf
  constructor
  · intro hi
    exact ⟨_, exec_done (i := .bvFlip) (by decide) hf (by rw [checksOf, checkIndex_ok hi]; rfl),
      fun j hj => getLsbD_flipbit_eq_ite _ hj⟩
  · intro hi
    exact exec_raise (v := (.indexOutOfRange, some s.ports.idx)) (by decide) hf
      (by rw [checksOf, checkIndex_bad hi]; rfl)

/-- Sets that differ at `i` alone have counts that differ by what they hold there. -/
theorem countBelow_of_eq_except {f g : Nat → Bool} {i m : Nat} (hi : i < m) (h : ∀ k, k ≠ i → f k = g k) :
    countBelow f m + (g i).toNat = countBelow g m + (f i).toNat := by
  induction m with
  | zero => omega
  | succ m ih =>
    rw [countBelow, countBelow]
    rcases Nat.lt_succ_iff_lt_or_eq.mp hi with hlt | rfl
    · have := ih hlt
      rw [h m (by omega)]
      omega
    · rw [countBelow_congr fun k hk => h k (by omega)]
      omega

/-- One flip moves the population count up from a 0 and down from a 1. -/
theorem popcount_flipbit {w i : Nat} (v : Bits w) (hi : i < w) :
    popcount (flipbit v i) + (v.getLsbD i).toNat = popcount v + (!v.getLsbD i).toNat := by
  have hflip : (flipbit v i).getLsbD i = !v.getLsbD i := by rw [getLsbD_flipbit_eq_ite v hi, if_pos rfl]
  rw [← hflip]
  refine countBelow_of_eq_except hi fun k hk => ?_
  simp [getLsbD_flipbit, Ne.symm hk]

/-- Settles O30. -/
theorem flipLaws : Obligations.FlipLaws := by
  intro w v i j hi hj
  refine ⟨flipbit_flipbit v i, flipbit_comm v i j, ?_, parity_flipbit v hi⟩
  have hcount := popcount_flipbit v hi
  cases hb : v.getLsbD i <;> simp only [hb, Bool.not_false, Bool.not_true, Bool.toNat_true, Bool.toNat_false] at hcount
  · exact .inl (by omega)
  · exact .inr (by omega)

end Sys2Proof.Machine
end

section
/-! PROOFS. The laws of the parity strategy (41_parity.md). -/

namespace Sys2Proof.Machine

/-- PAR.DEC makes no check; it delivers the data above bit 0 and the flags of the word's parity (R102). -/
theorem exec_parDec_withWPar {s : State} (hf : s.fault = 0#3) (w : Bits (parWidth s.params.n)) :
    exec .parDec (s.withWPar w) = .next { s.withWPar w with
      out := .codec s.params.n (s.params.n + 1)
        ⟨parData s.params.n w, w, !parity w, parity w, (parity w).toNat, 0⟩ } :=
  exec_done (i := .parDec) (s := s.withWPar w) (by decide) hf rfl

@[simp] theorem parData_parEncode {n : Nat} (d : Bits n) : parData n (parEncode d) = d := by
  apply BitVec.eq_of_getLsbD_eq
  intro j hj
  rw [getLsbD_parData _ hj, getLsbD_parEncode_succ]

/-- A flip at an index above 0 that is not undone by the second flip reaches the data (R103). -/
theorem parData_flipbit_flipbit_ne {n i j : Nat} (w : Bits (parWidth n)) (h0 : 0 < i) (hi : i < n + 1) (hij : i ≠ j) :
    parData n (flipbit (flipbit w i) j) ≠ parData n w := by
  intro h
  have hbit := congrArg (fun v : Bits n => v.getLsbD (i - 1)) h
  simp only [getLsbD_parData _ (show i - 1 < n by omega), Nat.sub_add_cancel h0, getLsbD_flipbit] at hbit
  simp [hi, hij.symm] at hbit

/-- Two distinct flips of a codeword never leave its datum: one of them is above the parity bit (R103). -/
theorem parData_two_flips_ne {n i j : Nat} (d : Bits n) (hi : i < n + 1) (hj : j < n + 1) (hij : i ≠ j) :
    parData n (flipbit (flipbit (parEncode d) i) j) ≠ d := by
  intro h
  rcases Nat.eq_zero_or_pos i with h0 | h0
  · rw [flipbit_comm] at h
    exact parData_flipbit_flipbit_ne (parEncode d) (by omega) hj hij.symm (h.trans (parData_parEncode d).symm)
  · exact parData_flipbit_flipbit_ne (parEncode d) h0 hi hij (h.trans (parData_parEncode d).symm)

/-- Settles O33: a codeword has even parity, and each flip inverts it. -/
theorem parityFlipLaws : Obligations.ParityFlipLaws := by
  intro s d hf
  refine ⟨?_, fun i hi => ⟨parData _ (flipbit (parEncode d) i), ?_⟩, fun i hi j hj hij =>
    ⟨_, parData_two_flips_ne d hi hj hij, ?_⟩⟩
  · rw [exec_parDec_withWPar hf, parity_parEncode, parData_parEncode]
    rfl
  · rw [exec_parDec_withWPar hf, parity_flipbit _ hi, parity_parEncode]
    rfl
  · rw [exec_parDec_withWPar hf, parity_flipbit _ hj, parity_flipbit _ hi, parity_parEncode]
    rfl

/-- Settles O34: parity and extraction are linear, so the flips act as the mask does. -/
theorem parityAnyFlips : Obligations.ParityAnyFlips := by
  intro s d m odd hf hodd
  have hpar : parity (parEncode d ^^^ m) = odd := by
    rw [parity_xor, parity_parEncode, Bool.false_xor, parity_eq_decide_length_filter, hodd]
  refine ⟨parData s.params.n (parEncode d ^^^ m), fun j hj => ?_, ?_⟩
  · rw [getLsbD_parData _ hj, BitVec.getLsbD_xor, getLsbD_parEncode_succ]
  · rw [exec_parDec_withWPar hf, hpar]

end Sys2Proof.Machine
end

section
/-! PROOFS. The layout of a Hamming block and its codec, HAM family (30_encoding.md section 1; 42_hamming.md). -/

namespace Sys2Proof.Machine

/-! ### Layout (30_encoding.md section 1) -/

theorem isPow2_eq_false_iff (p : Nat) : isPow2 p = false ↔ ∀ k, p ≠ 2 ^ k := by
  rw [← Bool.not_eq_true, isPow2_iff, not_exists]

theorem hamWidth_ne_two_pow (n k : Nat) : hamWidth n ≠ 2 ^ k :=
  dataPos_last n ▸ dataPos_ne_two_pow n k

/-- The check positions of the block are `2^0` to `2^(R-1)` (R61). -/
theorem two_pow_le_hamWidth_iff (n k : Nat) : 2 ^ k ≤ hamWidth n ↔ k < checkCount n := by
  refine ⟨fun h => ?_, two_pow_le_hamWidth⟩
  by_contra hk
  have hpow : 2 ^ checkCount n ≤ 2 ^ k := Nat.pow_le_pow_right (by decide) (Nat.le_of_not_lt hk)
  have := hamWidth_lt n
  omega

/-- The data positions below T are those of the data, the last is T (R62, R65). -/
theorem dataPos_le_hamWidth_iff (n j : Nat) : dataPos j ≤ hamWidth n ↔ j ≤ n := by
  rw [← dataPos_last n, dataPos_strictMono.le_iff_le]

/-- A position of the block that is no power of two is a data position (R62). -/
theorem exists_dataPos_le {n p : Nat} (h1 : 1 ≤ p) (hT : p ≤ hamWidth n) (hp : isPow2 p = false) :
    ∃ j ≤ n, dataPos j = p := by
  obtain ⟨j, rfl⟩ := exists_dataPos p h1 hp
  exact ⟨j, (dataPos_le_hamWidth_iff n j).mp hT, rfl⟩

/-- Settles O36. -/
theorem blockLayout : Obligations.BlockLayout := by
  intro n
  refine ⟨two_pow_pred_lt_hamWidth n, hamWidth_lt n, hamWidth_ne_two_pow n, two_pow_le_hamWidth_iff n,
    fun i j hij => dataPos_strictMono hij, fun j hj => ⟨?_, dataPos_le n j hj, dataPos_ne_two_pow j⟩,
    fun p h1 hT hp => ?_, dataPos_last n, fun j => ?_⟩
  · have := (dataPos_not_pow2 j).2
    omega
  · obtain ⟨j, hj, hjp⟩ := exists_dataPos_le h1 hT ((isPow2_eq_false_iff p).mpr hp)
    exact ⟨j, by omega, hjp⟩
  · have := dataPos_eq j
    omega

/-- `numberOf` is the sum of the powers of its set bits. -/
theorem numberOf_eq_sum (f : Nat → Bool) (w : Nat) :
    numberOf f w = ((List.range w).map fun i => if f i then 2 ^ i else 0).sum := by
  induction w with
  | zero => rfl
  | succ w ih => cases h : f w <;> simp [numberOf, List.range_succ, ih, h]

/-- A number below `2^w` is the number of its own bits. -/
theorem numberOf_testBit {p w : Nat} (h : p < 2 ^ w) : numberOf (fun i => p.testBit i) w = p := by
  apply Nat.eq_of_testBit_eq
  intro i
  rw [testBit_numberOf]
  by_cases hi : i < w
  · simp [hi]
  · have hle : 2 ^ w ≤ 2 ^ i := Nat.pow_le_pow_right (by decide) (Nat.le_of_not_lt hi)
    simp [hi, Nat.testBit_lt_two_pow (h.trans_le hle)]

/-- Settles O37: `COV[i]` is the positions with bit `i` set, and a position is the number of its bits. -/
theorem coverageSets : Obligations.CoverageSets := by
  refine ⟨fun i p => ?_, fun i j => ?_, fun n p hp => ?_⟩
  · rw [covers_eq_decide, decide_eq_true_iff]
  · rw [covers_eq_testBit, Nat.testBit_two_pow, decide_eq_true_iff, eq_comm]
  · simp only [covers_eq_testBit]
    rw [← numberOf_eq_sum, numberOf_testBit (hp.trans_lt (hamWidth_lt n))]

/-! ### Counting over the data positions -/

/-- Going over `DPOS[0]` to `DPOS[m]` is going over the positions that are no power of two (R62). -/
theorem countBelow_dataPos (g : Nat → Bool) (m : Nat) :
    countBelow (fun j => g (dataPos j - 1)) (m + 1) = countBelow (fun k => !isPow2 (k + 1) && g k) (dataPos m) := by
  induction m with
  | zero =>
    have h1 : isPow2 1 = true := rfl
    have h2 : isPow2 2 = true := rfl
    have h3 : isPow2 3 = false := rfl
    have h0 : dataPos 0 = 3 := rfl
    simp [countBelow, h0, h1, h2, h3]
  | succ m ih =>
    have hnot := (dataPos_not_pow2 (m + 1)).1
    have hnext : dataPos (m + 1) = nextDataPos (dataPos m) := rfl
    rw [countBelow, ih]
    by_cases hp : isPow2 (dataPos m + 1)
    · rw [nextDataPos, if_pos hp] at hnext
      rw [hnext] at hnot
      rw [hnext, countBelow, countBelow, hp, hnot]
      simp
    · rw [nextDataPos, if_neg hp] at hnext
      rw [hnext] at hnot
      rw [hnext, countBelow, hnot]
      simp

/-- The parity of the extended block is that of the word's data positions (R118). -/
theorem parity_extBlock {n : Nat} (w : Bits (hamWidth n)) :
    parity (extBlock n w) = odd (countBelow (fun k => !isPow2 (k + 1) && w.getLsbD k) (hamWidth n)) := by
  have hbits : ∀ j < extWidth n, (extBlock n w).getLsbD j = w.getLsbD (dataPos j - 1) := fun j hj => by
    rw [getLsbD_extBlock, decide_eq_true hj, Bool.true_and]
  rw [parity, popcount, countBelow_congr hbits, countBelow_dataPos, dataPos_last]

theorem getLsbD_extend_of_lt {n j : Nat} (d : Bits n) (hj : j < n) : (extend d).getLsbD j = d.getLsbD j := by
  rw [extend, BitVec.getLsbD_cons, if_neg hj.ne]

theorem getLsbD_extend_last {n : Nat} (d : Bits n) : (extend d).getLsbD n = parity d := by
  rw [extend, BitVec.getLsbD_cons, if_pos rfl]

/-- The appended bit makes the extended block even (R63). -/
@[simp] theorem parity_extend {n : Nat} (d : Bits n) : parity (extend d) = false := by
  rw [parity_eq_xor_last, resize_extend, getLsbD_extend_last, Bool.xor_self]

/-- HAM.PLACE fills the data positions alone, so its population is that of the extended block (R115). -/
theorem parity_place {n : Nat} (d : Bits n) : parity (place d) = false := by
  have hbits : ∀ k < hamWidth n, (!isPow2 (k + 1) && (place d).getLsbD k) = (place d).getLsbD k := fun k _ => by
    cases hp : isPow2 (k + 1)
    · simp
    · simp [getLsbD_place_pow2 d k hp]
  rw [← parity_extend d, ← extBlock_place, parity_extBlock, countBelow_congr hbits]
  rfl

/-- Settles O38: HAM.PLACE makes no check; below T stand the data, by the closed form of `DPOS`. -/
theorem placeResult : Obligations.PlaceResult := by
  intro s hf
  have hdone : exec .hamPlace s = .next (doneOf .hamPlace s) := exec_done (by decide) hf rfl
  refine ⟨place s.ports.d, hdone, fun p h1 hT hp => ?_, ?_, getLsbD_place_two_pow _, ?_⟩
  · obtain ⟨j, hj, rfl⟩ := exists_dataPos_le h1 hT.le ((isPow2_eq_false_iff p).mpr hp)
    have hlt : j < s.params.n := by
      rcases hj.eq_or_lt with rfl | h
      · exact absurd (dataPos_last _) hT.ne
      · exact h
    have hclosed : dataPos j - Nat.log2 (dataPos j) - 2 = j := by have := dataPos_eq j; omega
    rw [getLsbD_place_dataPos _ j (Nat.lt_succ_of_lt hlt), getLsbD_extend_of_lt _ hlt, hclosed]
  · have hlast := getLsbD_place_dataPos s.ports.d _ (Nat.lt_succ_self _)
    rwa [dataPos_last, getLsbD_extend_last, parity_eq_decide_length_filter] at hlast
  · have hpar := parity_place s.ports.d
    rw [parity_eq_decide_length_filter] at hpar
    simpa using hpar

/-! ### Linearity (42_hamming.md section 2) -/

theorem setbit_xor {w : Nat} (u v : Bits w) (i : Nat) (a b : Bool) :
    setbit (u ^^^ v) i (a ^^ b) = setbit u i a ^^^ setbit v i b := by
  apply BitVec.eq_of_getLsbD_eq
  intro j _
  rw [BitVec.getLsbD_xor, getLsbD_setbit, getLsbD_setbit, getLsbD_setbit, BitVec.getLsbD_xor]
  split <;> rfl

/-- Assignments to the same places are linear in the values and in the vector they start from. -/
theorem assignBits_xor {w : Nat} (u v : Bits w) (pos : Nat → Nat) (a b : Nat → Bool) (m : Nat) :
    assignBits (u ^^^ v) pos (fun j => a j ^^ b j) m = assignBits u pos a m ^^^ assignBits v pos b m := by
  induction m with
  | zero => rfl
  | succ m ih => rw [assignBits, ih, setbit_xor, assignBits, assignBits]

theorem extend_xor {n : Nat} (x y : Bits n) : extend (x ^^^ y) = extend x ^^^ extend y := by
  rw [extend, parity_xor, extend, extend, BitVec.cons_xor_cons]

theorem place_xor {n : Nat} (x y : Bits n) : place (x ^^^ y) = place x ^^^ place y := by
  have h := assignBits_xor (0#(hamWidth n)) 0#_ (fun j => dataPos j - 1) (fun j => (extend x).getLsbD j)
    (fun j => (extend y).getLsbD j) (extWidth n)
  simp only [BitVec.xor_self, ← BitVec.getLsbD_xor, ← extend_xor] at h
  exact h

theorem insertChecks_xor {n : Nat} (u v : Bits (hamWidth n)) (c c' : Bits (checkCount n)) :
    insertChecks n (u ^^^ v) (c ^^^ c') = insertChecks n u c ^^^ insertChecks n v c' := by
  simp only [insertChecks, BitVec.getLsbD_xor, assignBits_xor]

theorem hamEncode_xor {n : Nat} (x y : Bits n) : hamEncode (x ^^^ y) = hamEncode x ^^^ hamEncode y := by
  rw [hamEncode, place_xor, checks_xor, insertChecks_xor, hamEncode, hamEncode]

/-- A linear code holds the zero word. -/
@[simp] theorem hamEncode_zero (n : Nat) : hamEncode 0#n = 0#_ := by
  have h := hamEncode_xor (0#n) (0#n)
  rwa [BitVec.xor_self, BitVec.xor_self] at h

theorem hamEncode_injective {n : Nat} : Function.Injective (hamEncode : Bits n → Bits (hamWidth n)) :=
  Function.LeftInverse.injective (g := extract n) extract_hamEncode

/-- Settles O42. -/
theorem hammingEncodeLinear : Obligations.HammingEncodeLinear :=
  fun n => ⟨hamEncode_xor, fun _ _ h => hamEncode_injective h, hamEncode_zero n⟩

theorem checks_zero (n : Nat) : checks n 0#_ = 0#_ := by
  rw [← hamEncode_zero n, checks_hamEncode]

/-- Settles O40. -/
theorem checksAreLinear : Obligations.ChecksAreLinear := by
  refine fun n => ⟨checks_xor n, checks_zero n, fun p h1 hT => ?_, syndrome_eq_positionsXor n⟩
  have := hamWidth_lt n
  rw [checks_twoPow n _ (by omega), BitVec.toNat_ofNat, Nat.sub_add_cancel h1, Nat.mod_eq_of_lt (by omega)]

theorem extBlock_xor {n : Nat} (x y : Bits (hamWidth n)) : extBlock n (x ^^^ y) = extBlock n x ^^^ extBlock n y := by
  apply BitVec.eq_of_getLsbD_eq
  intro j _
  simp only [BitVec.getLsbD_xor, getLsbD_extBlock, Bool.and_xor_distrib_left]

/-- The syndrome of a corrupted codeword is that of the flips (R119, R131). -/
theorem positionsXor_hamEncode_xor {n : Nat} (d : Bits n) (m : Bits (hamWidth n)) :
    positionsXor (hamWidth n) (hamEncode d ^^^ m) = positionsXor (hamWidth n) m := by
  rw [← syndrome_eq_positionsXor, syndrome, checks_xor, checks_hamEncode, BitVec.zero_xor, ← syndrome,
    syndrome_eq_positionsXor]

theorem positionsXor_hamEncode {n : Nat} (d : Bits n) : positionsXor (hamWidth n) (hamEncode d) = 0 := by
  rw [← syndrome_eq_positionsXor, syndrome, checks_hamEncode]
  rfl

/-- A flip at position `p` moves the syndrome by `p`. -/
theorem positionsXor_flipbit {n p : Nat} (w : Bits (hamWidth n)) (h1 : 1 ≤ p) (hT : p ≤ hamWidth n) :
    positionsXor (hamWidth n) (flipbit w (p - 1)) = positionsXor (hamWidth n) w ^^^ p := by
  rw [← syndrome_eq_positionsXor, syndrome_flipbit n _ w (by omega), Nat.sub_add_cancel h1, syndrome_eq_positionsXor]

end Sys2Proof.Machine
end

section
/-! PROOFS. The Hamming decoder on corrupted words (42_hamming.md sections 3 and 4). -/

namespace Sys2Proof.Machine

/-! ### The paths (section 3) -/

section
variable {n : Nat} {w : Bits (hamWidth n)} (oor : OorPolicy)

/-- What HAM.DEC delivers on path NONE (R122). -/
theorem hamDecode_of_zero (h : positionsXor (hamWidth n) w = 0) :
    hamDecode oor n w = ⟨extract n w, w, true, false, 0, 0⟩ := by
  have hpath : decodePath n w = .noError := by rw [decodePath, syndrome_eq_positionsXor, if_pos h]
  rw [hamDecode, hpath]
  rfl

/-- What HAM.DEC delivers on path OUTOFRANGE (R127). -/
theorem hamDecode_of_beyond (h : hamWidth n < positionsXor (hamWidth n) w) :
    hamDecode oor n w = outOfRangeResult oor n w := by
  have hpath : decodePath n w = .outOfRange := by
    rw [decodePath, syndrome_eq_positionsXor, if_neg (Nat.ne_zero_of_lt h), if_neg (Nat.not_le_of_lt h)]
  rw [hamDecode, hpath]

/-- What HAM.DEC delivers on path OUTOFRANGE under the decided policy (R127, D8). -/
theorem hamDecode_of_beyond_decided (h : hamWidth n < positionsXor (hamWidth n) w) :
    hamDecode .decided n w = ⟨extract n w, w, false, true, 2, 0⟩ :=
  hamDecode_of_beyond .decided h

section
variable {x : Nat} (hx : x = positionsXor (hamWidth n) w) (h0 : 0 < x) (hT : x ≤ hamWidth n)
include hx h0 hT

/-- What HAM.DEC delivers when the tentative flip leaves even parity (R125). -/
theorem hamDecode_of_even (hpar : parity (extBlock n (flipbit w (x - 1))) = false) :
    hamDecode oor n w = ⟨extract n (flipbit w (x - 1)), w, true, true, 1, 1⟩ := by
  rw [hamDecode_of_single (by rw [decodePath_of_inRange hx h0 hT, hpar]; rfl), tentative_eq_flipbit hx]

/-- What HAM.DEC delivers when the tentative flip leaves odd parity (R126). -/
theorem hamDecode_of_odd (hpar : parity (extBlock n (flipbit w (x - 1))) = true) :
    hamDecode oor n w = ⟨extract n w, w, false, true, 2, 0⟩ :=
  hamDecode_of_double (by rw [decodePath_of_inRange hx h0 hT, hpar]; rfl)

end

end

/-- Settles O44. -/
theorem decodeWithoutError : Obligations.DecodeWithoutError := by
  intro s hf h
  rw [exec_hamDec hf, hamDecode_of_zero _ h]

/-- Settles O47. -/
theorem decodeOutOfRangeDecided : Obligations.DecodeOutOfRangeDecided := by
  intro s hf hoor hT
  rw [exec_hamDec hf, hoor, hamDecode_of_beyond_decided hT]

/-- Settles O48: the open triple is bounded by the type of the open count. -/
theorem decodeOutOfRangeDetects : Obligations.DecodeOutOfRangeDetects := by
  intro s hf hT
  rw [exec_hamDec hf, hamDecode_of_beyond _ hT]
  cases s.params.oor with
  | decided => exact ⟨_, _, _, le_rfl, rfl⟩
  | agnostic => exact ⟨_, _, _, Nat.le_of_lt_succ (Fin.isLt _), rfl⟩

/-! ### Flips and the data -/

/-- HAM.DEC on a word put on the Hamming port. -/
theorem exec_hamDec_withWHam {s : State} (hf : s.fault = 0#3) (w : Bits (hamWidth s.params.n)) :
    exec .hamDec (s.withWHam w) = .next { s.withWHam w with
      out := .codec s.params.n (hamWidth s.params.n) (hamDecode s.params.oor s.params.n w) } :=
  exec_hamDec (s := s.withWHam w) hf

/-- A flip at position `p` reaches the datum whose `DPOS` it is (R118). -/
theorem getLsbD_extract_flipbit {n j : Nat} (w : Bits (hamWidth n)) (p : Nat) (hj : j < n) :
    (extract n (flipbit w (p - 1))).getLsbD j = ((extract n w).getLsbD j ^^ decide (dataPos j = p)) := by
  have h3 := (dataPos_not_pow2 j).2
  have hin : dataPos j - 1 < hamWidth n := by have := dataPos_le n j (Nat.lt_succ_of_lt hj); omega
  have hiff : p - 1 = dataPos j - 1 ↔ dataPos j = p := by omega
  rw [getLsbD_extract, getLsbD_extract, getLsbD_flipbit]
  simp [hj, hin, hiff]

theorem getLsbD_extract_hamEncode_xor {n j : Nat} (d : Bits n) (m : Bits (hamWidth n)) (hj : j < n) :
    (extract n (hamEncode d ^^^ m)).getLsbD j = (d.getLsbD j ^^ m.getLsbD (dataPos j - 1)) := by
  have hd : (hamEncode d).getLsbD (dataPos j - 1) = d.getLsbD j := by
    have h := getLsbD_extract n (hamEncode d) j
    rw [extract_hamEncode, decide_eq_true hj, Bool.true_and] at h
    exact h.symm
  rw [getLsbD_extract, decide_eq_true hj, Bool.true_and, BitVec.getLsbD_xor, hd]

theorem isDataPos_eq {T p : Nat} (h1 : 1 ≤ p) (hT : p ≤ T) : isDataPos T p = !isPow2 p := by
  simp [isDataPos, h1, hT]

/-- A flip inverts the parity of the extended block where it hits a data position (R130). -/
theorem parity_extBlock_flipbit {n p : Nat} (w : Bits (hamWidth n)) (h1 : 1 ≤ p) (hT : p ≤ hamWidth n) :
    parity (extBlock n (flipbit w (p - 1))) = (parity (extBlock n w) ^^ isDataPos (hamWidth n) p) := by
  have hin : p - 1 < hamWidth n := by omega
  have hone : ∀ k < hamWidth n, (!isPow2 (k + 1) && (BitVec.twoPow (hamWidth n) (p - 1)).getLsbD k) =
      (decide (p - 1 = k) && !isPow2 (k + 1)) := fun k _ => by
    rw [BitVec.getLsbD_twoPow, decide_eq_true hin, Bool.true_and, Bool.and_comm]
  rw [flipbit, extBlock_xor, parity_xor, parity_extBlock (BitVec.twoPow _ _), countBelow_congr hone, countBelow_single,
    if_pos hin, Nat.sub_add_cancel h1, odd_toNat, isDataPos_eq h1 hT]

/-- The extended block of a codeword is even (R117). -/
theorem parity_extBlock_hamEncode {n : Nat} (d : Bits n) : parity (extBlock n (hamEncode d)) = false := by
  rw [extBlock_hamEncode, parity_extend]

/-! ### No flip and one flip (section 4) -/

/-- Decoding a codeword (R128). -/
theorem hamDecode_hamEncode (oor : OorPolicy) {n : Nat} (d : Bits n) :
    hamDecode oor n (hamEncode d) = ⟨d, hamEncode d, true, false, 0, 0⟩ := by
  rw [hamDecode_of_zero _ (positionsXor_hamEncode d), extract_hamEncode]

/-- Decoding a codeword with one flip: the syndrome is the flipped position, and the tentative flip undoes it (R129). -/
theorem hamDecode_flipbit_hamEncode (oor : OorPolicy) {n p : Nat} (d : Bits n) (h1 : 1 ≤ p) (hT : p ≤ hamWidth n) :
    hamDecode oor n (flipbit (hamEncode d) (p - 1)) = ⟨d, flipbit (hamEncode d) (p - 1), true, true, 1, 1⟩ := by
  have hx : p = positionsXor (hamWidth n) (flipbit (hamEncode d) (p - 1)) := by
    rw [positionsXor_flipbit _ h1 hT, positionsXor_hamEncode, Nat.zero_xor]
  rw [hamDecode_of_even oor hx h1 hT (by rw [flipbit_flipbit, parity_extBlock_hamEncode]), flipbit_flipbit,
    extract_hamEncode]

/-- Settles O49. -/
theorem hammingRoundTrip : Obligations.HammingRoundTrip := by
  intro s d hf
  rw [exec_hamDec_withWHam hf, hamDecode_hamEncode]

/-- Settles O50. -/
theorem hammingCorrectsEverySingleError : Obligations.HammingCorrectsEverySingleError := by
  intro s d p hf h1 hT
  rw [exec_hamDec_withWHam hf, hamDecode_flipbit_hamEncode _ _ h1 hT]

/-! ### Any set of flips (section 4) -/

/-- The parity after the tentative flip is that of the data positions in the symmetric difference of the flips and the
syndrome (R131). -/
theorem parity_extBlock_tentative {n x : Nat} (d : Bits n) (m : Bits (hamWidth n)) (h0 : 0 < x) :
    parity (extBlock n (flipbit (hamEncode d ^^^ m) (x - 1))) =
      odd (((List.range (hamWidth n)).filter fun i =>
        isDataPos (hamWidth n) (i + 1) && (m.getLsbD i ^^ decide (i + 1 = x))).length) := by
  have hflip : flipbit (hamEncode d ^^^ m) (x - 1) = hamEncode d ^^^ flipbit m (x - 1) := BitVec.xor_assoc _ _ _
  have hbits : ∀ k < hamWidth n, (!isPow2 (k + 1) && (flipbit m (x - 1)).getLsbD k) =
      (isDataPos (hamWidth n) (k + 1) && (m.getLsbD k ^^ decide (k + 1 = x))) := fun k hk => by
    have hiff : x - 1 = k ↔ k + 1 = x := by omega
    rw [isDataPos_eq (by omega) hk, getLsbD_flipbit, decide_eq_true hk, Bool.true_and]
    simp only [hiff]
  rw [hflip, extBlock_xor, parity_xor, parity_extBlock_hamEncode, Bool.false_xor, parity_extBlock,
    countBelow_congr hbits, countBelow_eq_length_filter]

/-- Settles O52: the syndrome and the extracted data are linear; the parity after the tentative flip picks the path. -/
theorem hammingAnyErrorOutcome : Obligations.HammingAnyErrorOutcome := by
  rintro s d m w x T k hf rfl hxm rfl hk
  have hx : x = positionsXor (hamWidth s.params.n) (hamEncode d ^^^ m) :=
    hxm.trans (positionsXor_hamEncode_xor d m).symm
  have hpar (h0 : 0 < x) : parity (extBlock s.params.n (flipbit (hamEncode d ^^^ m) (x - 1))) = decide (k % 2 = 1) := by
    rw [parity_extBlock_tentative d m h0, ← hk, odd_eq_decide]
  refine ⟨extract s.params.n (hamEncode d ^^^ m), extract s.params.n (flipbit (hamEncode d ^^^ m) (x - 1)),
    fun j hj => getLsbD_extract_hamEncode_xor d m hj, fun j hj => getLsbD_extract_flipbit _ x hj, fun h0 => ?_,
    fun h0 hT heven => ?_, ?_⟩
  · rw [exec_hamDec_withWHam hf, hamDecode_of_zero _ (hx.symm.trans h0)]
  · rw [exec_hamDec_withWHam hf, hamDecode_of_even _ hx h0 hT (by simp [hpar h0, heven])]
  · rintro (⟨h0, hT, hodd⟩ | ⟨hT, hoor⟩)
    · rw [exec_hamDec_withWHam hf, hamDecode_of_odd _ hx h0 hT (by simp [hpar h0, hodd])]
    · rw [exec_hamDec_withWHam hf, hoor, hamDecode_of_beyond_decided (hx ▸ hT)]

/-! ### Two flips (section 4) -/

/-- Two check positions never XOR to a third (R130). -/
theorem two_pow_xor_two_pow_ne {a b : Nat} (hab : a ≠ b) (c : Nat) : 2 ^ a ^^^ 2 ^ b ≠ 2 ^ c := by
  intro h
  have hbit (i : Nat) := congrArg (Nat.testBit · i) h
  simp only [Nat.testBit_xor, Nat.testBit_two_pow] at hbit
  have ha : c = a := by simpa [hab.symm] using hbit a
  have hb : c = b := by simpa [hab] using hbit b
  exact hab (ha.symm.trans hb)

theorem ne_xor_left {p q : Nat} (h : q ≠ 0) : p ≠ p ^^^ q := fun he =>
  h (Nat.xor_right_injective (he.symm.trans (Nat.xor_zero p).symm))

theorem ne_xor_right {p q : Nat} (h : p ≠ 0) : q ≠ p ^^^ q := fun he =>
  h (Nat.xor_left_injective (he.symm.trans (Nat.zero_xor q).symm))

section
variable {n p q : Nat}

theorem isPow2_of_not_isDataPos (h1 : 1 ≤ p) (hT : p ≤ hamWidth n) (h : isDataPos (hamWidth n) p = false) :
    ∃ k, p = 2 ^ k := by
  rw [isDataPos_eq h1 hT] at h
  exact (isPow2_iff p).mp (by simpa using h)

theorem exists_dataPos_of_isDataPos (h : isDataPos (hamWidth n) p = true) : ∃ j ≤ n, dataPos j = p := by
  simp only [isDataPos, Bool.and_eq_true, decide_eq_true_iff, Bool.not_eq_true'] at h
  obtain ⟨⟨h1, hT⟩, hp⟩ := h
  exact exists_dataPos_le h1 hT hp

/-- Of two data positions one lies below T and so holds a datum (R65 (c)). -/
theorem exists_datum_of_isDataPos (hp : isDataPos (hamWidth n) p = true) (hq : isDataPos (hamWidth n) q = true)
    (hpq : p ≠ q) : ∃ j < n, dataPos j = p ∨ dataPos j = q := by
  obtain ⟨i, hi, rfl⟩ := exists_dataPos_of_isDataPos hp
  obtain ⟨j, hj, rfl⟩ := exists_dataPos_of_isDataPos hq
  have hij : i ≠ j := fun h => hpq (congrArg dataPos h)
  rcases Nat.lt_or_ge i n with h | h
  · exact ⟨i, h, .inl rfl⟩
  · exact ⟨j, by omega, .inr rfl⟩

/-- Of two flipped positions and their XOR an even number of data positions is two, and one of those holds a datum: a
miscorrection is never the original (R130). -/
theorem exists_datum_of_even (hp1 : 1 ≤ p) (hpT : p ≤ hamWidth n) (hq1 : 1 ≤ q) (hqT : q ≤ hamWidth n)
    (hpq : p ≠ q) (hxT : p ^^^ q ≤ hamWidth n)
    (heven : ((isDataPos (hamWidth n) p).toNat + (isDataPos (hamWidth n) q).toNat +
      (isDataPos (hamWidth n) (p ^^^ q)).toNat) % 2 = 0) :
    ∃ j < n, dataPos j = p ∨ dataPos j = q ∨ dataPos j = p ^^^ q := by
  have hx0 : p ^^^ q ≠ 0 := Nat.xor_ne_zero_iff.mpr hpq
  have hpx : p ≠ p ^^^ q := ne_xor_left (by omega)
  have hqx : q ≠ p ^^^ q := ne_xor_right (by omega)
  cases hp : isDataPos (hamWidth n) p <;> cases hq : isDataPos (hamWidth n) q <;>
    cases hx : isDataPos (hamWidth n) (p ^^^ q) <;> simp [hp, hq, hx] at heven
  · obtain ⟨a, rfl⟩ := isPow2_of_not_isDataPos hp1 hpT hp
    obtain ⟨b, rfl⟩ := isPow2_of_not_isDataPos hq1 hqT hq
    obtain ⟨c, hc⟩ := isPow2_of_not_isDataPos (Nat.pos_of_ne_zero hx0) hxT hx
    exact absurd hc (two_pow_xor_two_pow_ne (fun h => hpq (congrArg _ h)) c)
  · obtain ⟨j, hj, h⟩ := exists_datum_of_isDataPos hq hx hqx
    exact ⟨j, hj, .inr h⟩
  · obtain ⟨j, hj, h⟩ := exists_datum_of_isDataPos hp hx hpx
    exact ⟨j, hj, h.imp_right .inr⟩
  · obtain ⟨j, hj, h⟩ := exists_datum_of_isDataPos hp hq hpq
    exact ⟨j, hj, h.imp_right .inl⟩

end

section
variable {n p q : Nat} (d : Bits n)

/-- A codeword with two flips has the XOR of their positions as its syndrome (R130). -/
theorem positionsXor_two_flips (hp1 : 1 ≤ p) (hpT : p ≤ hamWidth n) (hq1 : 1 ≤ q) (hqT : q ≤ hamWidth n) :
    positionsXor (hamWidth n) (flipbit (flipbit (hamEncode d) (p - 1)) (q - 1)) = p ^^^ q := by
  rw [positionsXor_flipbit _ hq1 hqT, positionsXor_flipbit _ hp1 hpT, positionsXor_hamEncode, Nat.zero_xor]

theorem getLsbD_extract_two_flips (hpq : p ≠ q) {j : Nat} (hj : j < n) :
    (extract n (flipbit (flipbit (hamEncode d) (p - 1)) (q - 1))).getLsbD j =
      (d.getLsbD j ^^ (decide (dataPos j = p) || decide (dataPos j = q))) := by
  rw [getLsbD_extract_flipbit _ q hj, getLsbD_extract_flipbit _ p hj, extract_hamEncode, Bool.xor_assoc]
  congr 1
  by_cases h : dataPos j = p
  · have hne : dataPos j ≠ q := fun hq => hpq (h.symm.trans hq)
    simp [h, h ▸ hne]
  · simp [h]

/-- The data after the tentative flip carry a flip at each of the three positions (R130). -/
theorem getLsbD_extract_three_flips {x : Nat} (hpq : p ≠ q) (hpx : p ≠ x) (hqx : q ≠ x) {j : Nat} (hj : j < n) :
    (extract n (flipbit (flipbit (flipbit (hamEncode d) (p - 1)) (q - 1)) (x - 1))).getLsbD j =
      (d.getLsbD j ^^ (decide (dataPos j = p) || decide (dataPos j = q) || decide (dataPos j = x))) := by
  rw [getLsbD_extract_flipbit _ x hj, getLsbD_extract_two_flips d hpq hj, Bool.xor_assoc]
  congr 1
  by_cases h : dataPos j = x
  · simp [h, hpx.symm, hqx.symm]
  · simp [h]

/-- The parity after the tentative flip counts the data positions among the two flips and the syndrome (R130). -/
theorem parity_extBlock_three_flips {x : Nat} (hp1 : 1 ≤ p) (hpT : p ≤ hamWidth n) (hq1 : 1 ≤ q)
    (hqT : q ≤ hamWidth n) (hx1 : 1 ≤ x) (hxT : x ≤ hamWidth n) :
    parity (extBlock n (flipbit (flipbit (flipbit (hamEncode d) (p - 1)) (q - 1)) (x - 1))) =
      odd ((isDataPos (hamWidth n) p).toNat + (isDataPos (hamWidth n) q).toNat + (isDataPos (hamWidth n) x).toNat) := by
  rw [parity_extBlock_flipbit _ hx1 hxT, parity_extBlock_flipbit _ hq1 hqT, parity_extBlock_flipbit _ hp1 hpT,
    parity_extBlock_hamEncode, Bool.false_xor, odd_add, odd_add, odd_toNat, odd_toNat, odd_toNat]

end

/-- Settles O51: the two flips' syndrome and the parity after the tentative flip pick the row of R130. -/
theorem hammingDoubleErrorOutcomes : Obligations.HammingDoubleErrorOutcomes := by
  rintro s d p q x T w hf rfl hp1 hpT hq1 hqT hpq hxor rfl
  have hx0 : x ≠ 0 := hxor ▸ Nat.xor_ne_zero_iff.mpr hpq
  have hx1 : 1 ≤ x := Nat.pos_of_ne_zero hx0
  have hx := hxor.trans (positionsXor_two_flips d hp1 hpT hq1 hqT).symm
  have hpar := parity_extBlock_three_flips d hp1 hpT hq1 hqT hx1
  refine ⟨hx0, fun h => ⟨_, fun j hj => getLsbD_extract_two_flips d hpq hj, ?_⟩, fun hT heven => ?_⟩
  · rw [exec_hamDec_withWHam hf]
    obtain ⟨hT, hoor⟩ | ⟨hT, hodd⟩ := h
    · rw [hoor, hamDecode_of_beyond_decided (hx ▸ hT)]
    · rw [hamDecode_of_odd _ hx hx1 hT (by rw [hpar hT, odd_eq_decide, hodd]; rfl)]
  · have hpx : p ≠ x := hxor ▸ ne_xor_left (by omega)
    have hqx : q ≠ x := hxor ▸ ne_xor_right (by omega)
    refine ⟨extract s.params.n (flipbit (flipbit (flipbit (hamEncode d) (p - 1)) (q - 1)) (x - 1)), fun he => ?_,
      fun j hj => getLsbD_extract_three_flips d hpq hpx hqx hj, ?_⟩
    · subst hxor
      obtain ⟨j, hj, h⟩ := exists_datum_of_even hp1 hpT hq1 hqT hpq hT heven
      have hbit := getLsbD_extract_three_flips d hpq hpx hqx hj
      rw [he] at hbit
      rcases h with h | h | h <;> simp [h] at hbit
    · rw [exec_hamDec_withWHam hf, hamDecode_of_even _ hx hx1 hT (by rw [hpar hT, odd_eq_decide, heven]; rfl)]

/-- Refutes O53: with N = 7, flips at positions 3 and 4 give syndrome 7, and of 3, 4 and 7 two are data positions. -/
theorem not_everyDoubleErrorReported : ¬ Obligations.EveryDoubleErrorReported := by
  intro h
  obtain ⟨r, hfail, hr⟩ := h State.reset 0#7 3 4 rfl (by decide) (by decide) (by decide) (by decide) (by decide)
  obtain ⟨-, -, hrow⟩ := hammingDoubleErrorOutcomes State.reset 0#7 3 4 7 12 _ rfl rfl (by decide) (by decide)
    (by decide) (by decide) (by decide) rfl rfl
  obtain ⟨data, -, -, hmiss⟩ := hrow (by decide) (by decide)
  have hout := congrArg State.out (Host.Outcome.next.inj (hr.symm.trans hmiss))
  obtain ⟨-, -, hres⟩ := Result.codec.inj hout
  rw [eq_of_heq hres] at hfail
  exact Bool.noConfusion hfail

end Sys2Proof.Machine
end

section
/-! PROOFS. The Chunk storage cell: reset, corruption and runs of operations (43_chunk.md). -/

namespace Sys2Proof.Machine

/-! ### CHUNK.INIT (R141) and the null strategy (R164) -/

/-- The encoding of the all-zero datum is the all-zero word, under either strategy (R141). -/
@[simp] theorem encodeFor_zero (st : Option Strategy) (n : Nat) : encodeFor st 0#n = 0#_ := by
  cases st with
  | none => rfl
  | some st =>
    cases st
    · exact BitVec.eq_of_toNat_eq ((toNat_parEncode 0#n).trans (by simp))
    · exact hamEncode_zero n

/-- Settles O8. -/
theorem initResetsCell : Obligations.InitResetsCell := by
  intro s hs
  rw [exec_chunkInit_some hs, encodeFor_zero]
  rfl

/-- Settles O9. -/
theorem initWithoutStrategyRaises : Obligations.InitWithoutStrategyRaises :=
  fun _ hs => exec_chunkInit_none hs

/-- Settles O10: the strategy check is the first that each of the three makes. -/
theorem chunkWithoutStrategyRaises : Obligations.ChunkWithoutStrategyRaises := by
  rintro s hs hf i (rfl | rfl | rfl) <;>
    exact exec_raise (v := (.nullStrategy, none)) (by decide) hf (by rw [checksOf, hs, checkStrategy_none]; rfl)

/-! ### CHUNK.CORRUPT (R143) -/

/-- CHUNK.CORRUPT within the block of a bound strategy. -/
theorem exec_chunkCorrupt {s : State} (hf : s.fault = 0#3) (hs : s.params.strat ≠ none)
    (hi : s.ports.idx < encWidth s.params.strat s.params.n) :
    exec .chunkCorrupt s = .next (loadEnc s (flipbit s.enc s.ports.idx)) :=
  exec_done (by decide) hf (by rw [checksOf, checkStrategy_of_ne_none hs, checkIndex_ok hi]; rfl)

/-- Settles O55. -/
theorem corruptFlipsOneBit : Obligations.CorruptFlipsOneBit := by
  rintro s T hf rfl hs
  constructor
  · intro hi
    exact ⟨_, fun j hj => getLsbD_flipbit_eq_ite s.enc hj, exec_chunkCorrupt hf hs hi⟩
  · intro hi
    exact exec_raise (v := (.indexOutOfRange, some s.ports.idx)) (by decide) hf
      (by rw [checksOf, checkStrategy_of_ne_none hs, checkIndex_bad hi]; rfl)

/-! ### Steps of a bound cell, and runs of them -/

/-- A run of `k + 1` steps whose first step answers `t` is a run of `k` from `t`. -/
theorem run_succ {s t : State} (h : step s = .next t) (k : Nat) :
    Host.Core.run core (k + 1) s = Host.Core.run core k t := by
  have hstep : core.step s = .next t := h
  simp only [Host.Core.run, hstep]

section
variable {n : Nat} {st : Strategy} {oor : OorPolicy} {enc : Bits (encWidth (some st) n)} {orig : Bits n}
  {ports : Ports ⟨n, some st, oor⟩} {rest : List (Request ⟨n, some st, oor⟩)} {info : Option Nat} {out : Result}

theorem step_store_cell (p : Ports ⟨n, some st, oor⟩) :
    step (cell n st oor enc orig ports (⟨0x31#8, p⟩ :: rest) info out) =
      .next (cell n st oor (encodeFor (some st) p.d) p.d p rest info .nothing) :=
  (step_of_decode rfl (decode_encode .chunkStore)).trans (exec_chunkStore_cell n st oor enc orig p rest info out)

theorem step_corrupt_cell {r : Request ⟨n, some st, oor⟩} (hc : r.cmd = 0x32#8)
    (hi : r.ports.idx < encWidth (some st) n) :
    step (cell n st oor enc orig ports (r :: rest) info out) =
      .next (cell n st oor (flipbit enc r.ports.idx) orig r.ports rest info .nothing) :=
  (step_of_decode rfl (by rw [hc]; exact decode_encode .chunkCorrupt)).trans
    (exec_chunkCorrupt (s := cell n st oor enc orig r.ports rest info out) rfl (Option.some_ne_none st) hi)

/-- Taking a CHUNK.RETRIEVE request, with the report `r` of the bound codec and its comparison with ORIG. -/
theorem step_retrieve_cell {r : CodecResult n (encWidth (some st) n)} {b : Bool}
    (hr : decodeFor (some st) oor n enc = some r) (henc : r.storedBits = enc) (hb : correctFlag r.decodedBits orig = b)
    (p : Ports ⟨n, some st, oor⟩) :
    step (cell n st oor enc orig ports (⟨0x33#8, p⟩ :: rest) info out) =
      .next (cell n st oor enc orig p rest info (.chunk n (encWidth (some st) n) ⟨r, orig, b⟩)) := by
  have hreport : retrieved r enc orig = ⟨r, orig, b⟩ := by rw [retrieved, hb, ← henc]
  rw [← hreport]
  exact (step_of_decode rfl (decode_encode .chunkRetrieve)).trans
    (exec_chunkRetrieve_cell n st oor enc orig p rest info out hr)

/-- Whether index `i` is named an odd number of times, with one more request in front. -/
theorem odd_count_cons {p : Params} (r : Request p) (rs : List (Request p)) (i : Nat) :
    odd ((r :: rs).filter fun r => decide (r.ports.idx = i)).length =
      (decide (r.ports.idx = i) ^^ odd (rs.filter fun r => decide (r.ports.idx = i)).length) := by
  by_cases h : r.ports.idx = i
  · rw [List.filter_cons_of_pos (by simpa using h), List.length_cons, odd_add, decide_eq_true h, Bool.xor_comm]
    rfl
  · rw [List.filter_cons_of_neg (by simpa using h), decide_eq_false h, Bool.false_xor]

/-- Corruptions add up modulo 2 (R144): by induction on the requests, each flipping the index it names. -/
theorem run_corrupts_cell {rs : List (Request ⟨n, some st, oor⟩)}
    (hrs : ∀ r ∈ rs, r.cmd = 0x32#8 ∧ r.ports.idx < encWidth (some st) n) :
    ∃ (e : Bits (encWidth (some st) n)) (q : Ports ⟨n, some st, oor⟩) (x : Result),
      (∀ i < encWidth (some st) n,
        e.getLsbD i = (enc.getLsbD i ^^ odd (rs.filter fun r => decide (r.ports.idx = i)).length)) ∧
      Host.Core.run core rs.length (cell n st oor enc orig ports (rs ++ rest) info out) =
        .next (cell n st oor e orig q rest info x) := by
  induction rs generalizing enc ports out with
  | nil => exact ⟨enc, ports, out, fun i _ => by simp, rfl⟩
  | cons r rs ih =>
    obtain ⟨hc, hi⟩ := hrs r List.mem_cons_self
    obtain ⟨e, q, x, hbits, hrun⟩ := ih (enc := flipbit enc r.ports.idx) (ports := r.ports) (out := .nothing)
      fun r' hr' => hrs r' (List.mem_cons_of_mem _ hr')
    refine ⟨e, q, x, fun i hlt => ?_, (run_succ (step_corrupt_cell hc hi) _).trans hrun⟩
    rw [hbits i hlt, odd_count_cons, getLsbD_flipbit, decide_eq_true hlt, Bool.true_and, Bool.xor_assoc]

end

/-- Settles O56: a live block with a strategy bound is a `cell`. -/
theorem corruptionsAddUp : Obligations.CorruptionsAddUp := by
  rintro ⟨⟨n, st, oor⟩, enc, orig, fault, info, ports, pending, out⟩
  dsimp only
  intro rs rest hf hs hp hrs
  obtain ⟨st, rfl⟩ := Option.ne_none_iff_exists'.mp hs
  subst hf
  obtain rfl : pending = (rs ++ rest : List (Request ⟨n, some st, oor⟩)) := hp
  obtain ⟨e, q, x, hbits, hrun⟩ := run_corrupts_cell (enc := enc) (orig := orig) (ports := ports) (rest := rest)
    (info := info) (out := out) hrs
  exact ⟨e, q, x, fun i hi => by rw [hbits i hi, odd_eq_decide], hrun⟩

/-! ### End to end (R147) -/

section
variable {n : Nat} {st : Strategy} {oor : OorPolicy} {enc : Bits (encWidth (some st) n)} {orig : Bits n}
  {ports : Ports ⟨n, some st, oor⟩} {rest : List (Request ⟨n, some st, oor⟩)} {info : Option Nat} {out : Result}
  {p1 p2 p3 p4 : Ports ⟨n, some st, oor⟩} {r : CodecResult n (encWidth (some st) n)} {b : Bool}

/-- Store, then retrieve: the codec's report on the encoding, against the datum stored. -/
theorem run_store_retrieve (hr : decodeFor (some st) oor n (encodeFor (some st) p1.d) = some r)
    (henc : r.storedBits = encodeFor (some st) p1.d) (hb : correctFlag r.decodedBits p1.d = b) :
    Host.Core.run core 2 (cell n st oor enc orig ports (⟨0x31#8, p1⟩ :: ⟨0x33#8, p2⟩ :: rest) info out) =
      .next (cell n st oor (encodeFor (some st) p1.d) p1.d p2 rest info
        (.chunk n (encWidth (some st) n) ⟨r, p1.d, b⟩)) :=
  (run_succ (step_store_cell p1) 1).trans (run_succ (step_retrieve_cell hr henc hb p2) 0)

/-- Store, one corrupt, retrieve. -/
theorem run_store_corrupt_retrieve (hi : p2.idx < encWidth (some st) n)
    (hr : decodeFor (some st) oor n (flipbit (encodeFor (some st) p1.d) p2.idx) = some r)
    (henc : r.storedBits = flipbit (encodeFor (some st) p1.d) p2.idx) (hb : correctFlag r.decodedBits p1.d = b) :
    Host.Core.run core 3
        (cell n st oor enc orig ports (⟨0x31#8, p1⟩ :: ⟨0x32#8, p2⟩ :: ⟨0x33#8, p3⟩ :: rest) info out) =
      .next (cell n st oor (flipbit (encodeFor (some st) p1.d) p2.idx) p1.d p3 rest info
        (.chunk n (encWidth (some st) n) ⟨r, p1.d, b⟩)) :=
  (run_succ (step_store_cell p1) 2).trans <|
    (run_succ (step_corrupt_cell (r := ⟨0x32#8, p2⟩) rfl hi) 1).trans <|
    run_succ (step_retrieve_cell hr henc hb p3) 0

/-- Store, two corrupts, retrieve. -/
theorem run_store_two_corrupts_retrieve (h2 : p2.idx < encWidth (some st) n) (h3 : p3.idx < encWidth (some st) n)
    (hr : decodeFor (some st) oor n (flipbit (flipbit (encodeFor (some st) p1.d) p2.idx) p3.idx) = some r)
    (henc : r.storedBits = flipbit (flipbit (encodeFor (some st) p1.d) p2.idx) p3.idx)
    (hb : correctFlag r.decodedBits p1.d = b) :
    Host.Core.run core 4 (cell n st oor enc orig ports
        (⟨0x31#8, p1⟩ :: ⟨0x32#8, p2⟩ :: ⟨0x32#8, p3⟩ :: ⟨0x33#8, p4⟩ :: rest) info out) =
      .next (cell n st oor (flipbit (flipbit (encodeFor (some st) p1.d) p2.idx) p3.idx) p1.d p4 rest info
        (.chunk n (encWidth (some st) n) ⟨r, p1.d, b⟩)) :=
  (run_succ (step_store_cell p1) 3).trans <|
    (run_succ (step_corrupt_cell (r := ⟨0x32#8, p2⟩) rfl h2) 2).trans <|
    (run_succ (step_corrupt_cell (r := ⟨0x32#8, p3⟩) rfl h3) 1).trans <|
    run_succ (step_retrieve_cell hr henc hb p4) 0

end

theorem parDecode_of_parity {n : Nat} {w : Bits (parWidth n)} {p : Bool} (h : parity w = p) :
    parDecode n w = ⟨parData n w, w, !p, p, p.toNat, 0⟩ := by
  rw [← h]
  rfl

/-- A report whose data are the datum stored is correct (R31). -/
theorem correctFlag_self {n : Nat} (d : Bits n) : correctFlag d d = true := by
  rw [correctFlag_eq_decide, decide_eq_true rfl]

theorem correctFlag_of_ne {n : Nat} {x d : Bits n} (h : x ≠ d) : correctFlag x d = false := by
  rw [correctFlag_eq_decide, decide_eq_false h]

/-- Settles O59: the codecs' own laws, through the runs. -/
theorem cellEndToEnd : Obligations.CellEndToEnd := by
  refine ⟨fun n oor enc orig ports p1 p2 rest info out => ?_, fun n oor enc orig ports p1 p2 rest info out => ?_,
    fun n oor enc orig ports p1 p2 p3 rest info out hi => ?_, fun n oor enc orig ports p1 p2 p3 rest info out hi => ?_,
    fun n oor enc orig ports p1 p2 p3 p4 rest info out h2 h3 hne => ?_⟩
  · have hr := hamDecode_hamEncode oor p1.d
    exact run_store_retrieve (congrArg some hr) rfl (correctFlag_self p1.d)
  · have hr := parDecode_of_parity (parity_parEncode p1.d)
    rw [parData_parEncode] at hr
    exact run_store_retrieve (congrArg some hr) rfl (correctFlag_self p1.d)
  · have hr := hamDecode_flipbit_hamEncode oor p1.d (Nat.le_add_left 1 p2.idx) hi
    exact run_store_corrupt_retrieve hi (congrArg some hr) rfl (correctFlag_self p1.d)
  · have hpar : parity (flipbit (parEncode p1.d) p2.idx) = true := by rw [parity_flipbit _ hi, parity_parEncode]; rfl
    exact ⟨_, _, run_store_corrupt_retrieve hi (congrArg some (parDecode_of_parity hpar)) rfl rfl⟩
  · have hpar : parity (flipbit (flipbit (parEncode p1.d) p2.idx) p3.idx) = false := by
      rw [parity_flipbit _ h3, parity_flipbit _ h2, parity_parEncode]; rfl
    exact ⟨_, run_store_two_corrupts_retrieve h2 h3 (congrArg some (parDecode_of_parity hpar)) rfl
      (correctFlag_of_ne (parData_two_flips_ne p1.d h2 h3 hne))⟩

/-! ### Retrieving (R145, R146) -/

theorem retrieveResult_of_some {s : State} {r : CodecResult s.params.n (encWidth s.params.strat s.params.n)}
    (h : decodeFor s.params.strat s.params.oor s.params.n s.enc = some r) :
    retrieveResult s = .chunk s.params.n (encWidth s.params.strat s.params.n) (retrieved r s.enc s.orig) := by
  simp only [retrieveResult, h]

theorem retrieveResult_of_none {s : State} (h : decodeFor s.params.strat s.params.oor s.params.n s.enc = none) :
    retrieveResult s = .nothing := by
  simp only [retrieveResult, h]

/-- A retrieve does not read the last result, which is all it writes (R145). -/
theorem retrieveResult_deliver (x : Result) (s : State) : retrieveResult (deliver x s) = retrieveResult s := by
  cases h : decodeFor s.params.strat s.params.oor s.params.n s.enc with
  | none => rw [retrieveResult_of_none h, retrieveResult_of_none (s := deliver x s) h]
  | some r => rw [retrieveResult_of_some h, retrieveResult_of_some (s := deliver x s) h]; rfl

/-- Settles O58: what CHUNK.RETRIEVE reads it leaves, and once ignored or faulted it is ignored. -/
theorem retrieveTwiceIsRetrieve : Obligations.RetrieveTwiceIsRetrieve := by
  intro s t h
  have hi : Instr.chunkRetrieve ≠ .chunkInit := by decide
  rw [exec_eq_operate hi] at h
  obtain ⟨hf, rfl⟩ | ⟨v, -, -, rfl⟩ | ⟨hf, hv, rfl⟩ := operate_cases h
  · exact exec_of_faulted (s := { s with out := .nothing }) hi hf
  · exact exec_of_faulted (s := { s with fault := v.1.code, faultInfo := v.2, out := .nothing }) hi v.1.code_ne_zero
  · rw [exec_done (s := doneOf .chunkRetrieve s) hi hf hv, doneOf, doneOf, retrieveResult_deliver]
    rfl

/-- Settles O60: each row is the decode of its word, which stays within the block, so the policy does not matter. -/
theorem successAndCorrectAreIndependent : Obligations.SuccessAndCorrectAreIndependent := by
  intro oor ports pending info out
  have row (w : Bits (hamWidth 7)) (r : CodecResult 7 (hamWidth 7)) (hr : hamDecode oor 7 w = r) :=
    exec_chunkRetrieve_cell 7 .hamming oor w 0x70#7 ports pending info out (congrArg some hr)
  refine ⟨row _ ⟨0x70#7, 0xF08#12, true, false, 0, 0⟩ ?_, row _ ⟨0x70#7, 0xF48#12, true, true, 1, 1⟩ ?_,
    row _ ⟨0x74#7, 0xF2A#12, false, true, 2, 0⟩ ?_, row _ ⟨0x70#7, 0xF0B#12, false, true, 2, 0⟩ ?_,
    row _ ⟨0x79#7, 0xF04#12, true, true, 1, 1⟩ ?_, row _ ⟨0x79#7, 0xF44#12, true, false, 0, 0⟩ ?_⟩
  all_goals cases oor <;> decide

end Sys2Proof.Machine
end
